-- ==== Sys2Proof/Word.lean ====
section
/-! DEFINITION. The words of MCPROTO-CORE: bytes, integer operands, addresses and counts
(spec/00_scope.md R5, R6, R9; spec/30_encoding.md R60). -/

namespace Sys2Proof

/-- A byte is 8 bits (R9). -/
abbrev Byte := BitVec 8

/-- The 64-bit `val` field of a command or a response, and the Position word (R60, R63, R111). -/
abbrev Word64 := BitVec 64

/-- A `PW` = 32 bit container: a Position field on the ports, or a VarInt operand (R5, R60, R67). -/
abbrev Word32 := BitVec 32

/-- A byte address. `AW` is at most 63 (R5), so 63 bits hold the address of every instance;
`Cmd.wf` says that an address fits the instance's own `AW` bits (log 2). -/
abbrev Addr := BitVec 63

/-- A `CW` = 64 bit unsigned count: `avail`, `consumed` (R5, R60, R63). -/
abbrev Count := BitVec 64

end Sys2Proof
end

