-- ==== Sys2Proof/Syntax.lean ====
section
/-! DEFINITION. The command record and the ten commands of MCPROTO-CORE
(spec/30_encoding.md R60, R61, R62). -/

namespace Sys2Proof

/-- The command record, all of whose fields are presented together (R60). It is not stored in
memory, so it has no layout of bits beyond that of each field (log 5). -/
structure Cmd where
  /-- The command code (R61). -/
  op : BitVec 4
  /-- Integer operand: the value to size or encode, or the Packet's opcode. -/
  val : Word64
  /-- Position field x. -/
  x : Word32
  /-- Position field y. -/
  y : Word32
  /-- Position field z. -/
  z : Word32
  /-- Byte address of window byte 0 (R40). -/
  ptr : Addr
  /-- Number of bytes in the window (R40). -/
  avail : Count
  /-- The Packet's payload, delivered in order on a port of its own. -/
  pay : List Byte
deriving DecidableEq, Repr

/-- The five formats of R62: which fields of the record a command uses. -/
inductive Format where
  | fSize
  | fEnc
  | fDec
  | fPos
  | fPkt
deriving DecidableEq, Repr

/-- The ten commands (R61), each with exactly the fields its format uses (R62). A field that the
format does not list is ignored (R65), so no constructor carries it. -/
inductive Instr where
  /-- `ENC_VARINT`, op 0x0 (R86). -/
  | encVarint (val : Word64) (ptr : Addr) (avail : Count)
  /-- `ENC_VARLONG`, op 0x1 (R87). -/
  | encVarlong (val : Word64) (ptr : Addr) (avail : Count)
  /-- `DEC_VARINT`, op 0x2 (R103). -/
  | decVarint (ptr : Addr) (avail : Count)
  /-- `DEC_VARLONG`, op 0x3 (R104). -/
  | decVarlong (ptr : Addr) (avail : Count)
  /-- `SIZE_VARINT`, op 0x4 (R84). -/
  | sizeVarint (val : Word64)
  /-- `SIZE_VARLONG`, op 0x5 (R85). -/
  | sizeVarlong (val : Word64)
  /-- `ENC_POS`, op 0x8 (R115). -/
  | encPos (x y z : Word32) (ptr : Addr) (avail : Count)
  /-- `DEC_POS`, op 0xA (R116). -/
  | decPos (ptr : Addr) (avail : Count)
  /-- `ENC_PKT`, op 0xC (R131). -/
  | encPkt (val : Word64) (pay : List Byte) (ptr : Addr) (avail : Count)
  /-- `DEC_PKT`, op 0xE (R135). -/
  | decPkt (ptr : Addr) (avail : Count)
deriving DecidableEq, Repr

/-- The format of each command (R62). -/
def Instr.format : Instr → Format
  | .encVarint _ _ _ => .fEnc
  | .encVarlong _ _ _ => .fEnc
  | .decVarint _ _ => .fDec
  | .decVarlong _ _ => .fDec
  | .sizeVarint _ => .fSize
  | .sizeVarlong _ => .fSize
  | .encPos _ _ _ _ _ => .fPos
  | .decPos _ _ => .fDec
  | .encPkt _ _ _ _ => .fPkt
  | .decPkt _ _ => .fDec

/-- The window `(ptr, avail)` of a command, for the eight commands that have one (R40); the size
commands touch no buffer (R27). -/
def Instr.window? : Instr → Option (Addr × Count)
  | .encVarint _ ptr avail => some (ptr, avail)
  | .encVarlong _ ptr avail => some (ptr, avail)
  | .decVarint ptr avail => some (ptr, avail)
  | .decVarlong ptr avail => some (ptr, avail)
  | .sizeVarint _ => none
  | .sizeVarlong _ => none
  | .encPos _ _ _ ptr avail => some (ptr, avail)
  | .decPos ptr avail => some (ptr, avail)
  | .encPkt _ _ ptr avail => some (ptr, avail)
  | .decPkt ptr avail => some (ptr, avail)

/-- The payload a command carries: only `ENC_PKT` uses one (R65). -/
def Instr.payload : Instr → List Byte
  | .encVarint _ _ _ => []
  | .encVarlong _ _ _ => []
  | .decVarint _ _ => []
  | .decVarlong _ _ => []
  | .sizeVarint _ => []
  | .sizeVarlong _ => []
  | .encPos _ _ _ _ _ => []
  | .decPos _ _ => []
  | .encPkt _ pay _ _ => pay
  | .decPkt _ _ => []

end Sys2Proof
end

