-- ==== Sys2Proof/Decode.lean ====
section
/-! DEFINITION. From a command record to a command and back (spec/30_encoding.md R60 to R67). -/

namespace Sys2Proof

/-- Why a command record stands for none of the ten commands. There is one reason (R61, R66). -/
inductive DecodeError where
  /-- `op` is one of the six reserved codes; the block answers such a record with `BadCommand`. -/
  | reservedCode (op : BitVec 4)
deriving DecidableEq, Repr

/-- `op[3:2]`: 0 varint codec, 1 varint size, 2 Position, 3 Packet (R61). -/
def opUnit (op : BitVec 4) : BitVec 2 := op.extractLsb' 2 2

/-- `op[1]`: 0 encode or compute, 1 decode (R61). -/
def opDir (op : BitVec 4) : Bool := op.getLsbD 1

/-- `op[0]`: 0 for 32-bit, 1 for 64-bit (R61). -/
def opWide (op : BitVec 4) : Bool := op.getLsbD 0

/-- The command a record stands for: the table of R61, with the fields of R62. Total; each of the
six reserved codes is rejected by name (R66). -/
def decode (c : Cmd) : Except DecodeError Instr :=
  match c.op.toNat with
  | 0x0 => .ok (.encVarint c.val c.ptr c.avail)
  | 0x1 => .ok (.encVarlong c.val c.ptr c.avail)
  | 0x2 => .ok (.decVarint c.ptr c.avail)
  | 0x3 => .ok (.decVarlong c.ptr c.avail)
  | 0x4 => .ok (.sizeVarint c.val)
  | 0x5 => .ok (.sizeVarlong c.val)
  | 0x8 => .ok (.encPos c.x c.y c.z c.ptr c.avail)
  | 0xA => .ok (.decPos c.ptr c.avail)
  | 0xC => .ok (.encPkt c.val c.pay c.ptr c.avail)
  | 0xE => .ok (.decPkt c.ptr c.avail)
  | _ => .error (.reservedCode c.op)

/-- The record with the given code and every other field zero or empty. -/
def Cmd.blank (op : BitVec 4) : Cmd :=
  { op := op, val := 0, x := 0, y := 0, z := 0, ptr := 0, avail := 0, pay := [] }

/-- The record a caller presents for a command, its ignored fields zero (R61, R62, R65). -/
def encode : Instr → Cmd
  | .encVarint val ptr avail => { Cmd.blank 0x0 with val := val, ptr := ptr, avail := avail }
  | .encVarlong val ptr avail => { Cmd.blank 0x1 with val := val, ptr := ptr, avail := avail }
  | .decVarint ptr avail => { Cmd.blank 0x2 with ptr := ptr, avail := avail }
  | .decVarlong ptr avail => { Cmd.blank 0x3 with ptr := ptr, avail := avail }
  | .sizeVarint val => { Cmd.blank 0x4 with val := val }
  | .sizeVarlong val => { Cmd.blank 0x5 with val := val }
  | .encPos x y z ptr avail =>
    { Cmd.blank 0x8 with x := x, y := y, z := z, ptr := ptr, avail := avail }
  | .decPos ptr avail => { Cmd.blank 0xA with ptr := ptr, avail := avail }
  | .encPkt val pay ptr avail =>
    { Cmd.blank 0xC with val := val, pay := pay, ptr := ptr, avail := avail }
  | .decPkt ptr avail => { Cmd.blank 0xE with ptr := ptr, avail := avail }

/-- The record with every field that a format does not list set to zero or empty (R62). -/
def Cmd.keep (f : Format) (c : Cmd) : Cmd :=
  match f with
  | .fSize => { Cmd.blank c.op with val := c.val }
  | .fEnc => { Cmd.blank c.op with val := c.val, ptr := c.ptr, avail := c.avail }
  | .fDec => { Cmd.blank c.op with ptr := c.ptr, avail := c.avail }
  | .fPos => { Cmd.blank c.op with x := c.x, y := c.y, z := c.z, ptr := c.ptr, avail := c.avail }
  | .fPkt => { Cmd.blank c.op with val := c.val, pay := c.pay, ptr := c.ptr, avail := c.avail }

/-- The record that a word of spec/opcode_table.json stands for. The table gives a row the four
bits of `cmd.op` and nothing else, so `op` is bits 3 to 0 of the word; its mask is 0xF, so the
bits above take no part; every other field of the record is zero or empty (log 5). -/
def Cmd.ofTableWord (w : Nat) : Cmd :=
  Cmd.blank (BitVec.ofNat 4 w)

/-- The command that the decoder reads from a word of the opcode table; none where the code is
reserved or the word is too short to hold the four bits of `op`. -/
def decodeTableWord (nbits w : Nat) : Option Instr :=
  if nbits < 4 then none
  else
    match decode (Cmd.ofTableWord w) with
    | .ok i => some i
    | .error _ => none

end Sys2Proof
end

