-- ==== Sys2Proof/Config.lean ====
section
/-! DEFINITION. What an instance of MCPROTO-CORE fixes, and the model's one free value
(spec/00_scope.md R5; spec/70_reset_and_hazards.md R183). -/

namespace Sys2Proof

/-- The one open parameter of R5 (92_eei_decisions.md D12): `AW`, the width in bits of a
buffer-memory byte address. It is an argument of the model, so State carries it and every
statement over all states holds for every `AW` (log 1). No step changes it (R25). -/
structure Config where
  aw : Nat
deriving DecidableEq, Repr

/-- `1 <= AW <= 63` (R5). -/
def Config.wf (c : Config) : Bool :=
  decide (1 ≤ c.aw) && decide (c.aw ≤ 63)

/-- The first byte address that does not exist: `Mem` has the addresses 0 to `2^AW - 1` (R27). -/
def Config.top (c : Config) : Nat :=
  2 ^ c.aw

/-- FREE VALUE (log 8). R183: when reset abandons an encode command, some number `j` of its bytes
has been written, and "`j` is not specified". The model bounds the value drawn here by the number
of bytes the command would have written; nothing else is known of it. -/
opaque Config.abandonPoint : Nat → Nat

end Sys2Proof
end

