-- ==== Sys2Proof/Machine/State.lean ====
section
/-! DEFINITION. The state of the model, all of it plain data, and the state after reset
(spec/10_state.md; spec/30_encoding.md R63; spec/60_exceptions.md R151;
spec/70_reset_and_hazards.md R180, R183, R187). -/

namespace Sys2Proof.Machine

/-- Buffer memory (R27), as (address, byte) pairs in the canonical form of `Memory.wf`: addresses
strictly rising, no pair with the byte that an unlisted address reads as (log 3). -/
structure Memory where
  cells : List Host.Cell
deriving DecidableEq, Repr

/-- The outcome of a command (R151). Codes 4 to 6 are reserved and never produced, so they have no
constructor (93_implementation_defined.md U7, log 13). -/
inductive Status where
  /-- Success. -/
  | ok
  /-- The window lacked bytes to decode or room to encode (R158). -/
  | bufferTooSmall
  /-- An integer or a Packet length exceeds its maximum (R158). -/
  | valueTooLarge
  /-- Reserved for the String codec, which this block does not contain; never answered (R152). -/
  | stringTooLong
  /-- A reserved code or a window past the top of the address space (R153). -/
  | badCommand
deriving DecidableEq, Repr

/-- The response record (R63). -/
structure Rsp where
  status : Status
  consumed : Count
  val : Word64
  x : Word32
  y : Word32
  z : Word32
  pay : List Byte
deriving DecidableEq, Repr

/-- What can reach the block from outside (R187, R183, R185; log 4). -/
inductive Event where
  /-- The caller presents a command record and the block answers it (R20, R187). -/
  | command (c : Cmd)
  /-- Between commands the caller writes a byte of `Mem` (R187). -/
  | write (a : Addr) (b : Byte)
  /-- The reset input, while no command is in progress (R180). -/
  | reset
  /-- The reset input, while the command of this record is in progress (R183). -/
  | resetDuring (c : Cmd)
  /-- The caller presents a command record, and while the command is in progress another agent
  writes a byte of `Mem` (R53, R185). -/
  | writeDuring (c : Cmd) (a : Addr) (b : Byte)
deriving DecidableEq, Repr

/-- The state of the model. The block itself keeps nothing between commands (R21 to R26): `mem` is
the caller's buffer memory, `cfg` the parameters of the instance, and the other three fields are
the model's own. -/
structure State where
  /-- The parameters of R5 that are open; no step changes them (R25, log 1). -/
  cfg : Config
  /-- The buffer memory (R27). -/
  mem : Memory
  /-- What the outside will do next, oldest first (log 4). -/
  inputs : List Event
  /-- The responses delivered so far, oldest first. An output: no rule reads it (R21, log 6). -/
  responses : List Rsp
  /-- How many free values have been drawn (log 8). -/
  draws : Nat
deriving DecidableEq, Repr

/-- Why the machine stops with a fault. No command faults. -/
inductive Fault where
  /-- Raised by an input that writes `Mem` at an address at or above `2^AW`, which does not exist
  (R27). Safe: nothing is claimed of such a run (log 11). -/
  | noSuchAddress (a : Addr)
deriving DecidableEq, Repr

/-- Why the model gives an input no meaning. No command is refused. -/
inductive Refusal where
  /-- A command that has no meaning yet. No arm of `exec` answers it. Safe. -/
  | notModelled (mnemonic : String)
  /-- Raised when another agent writes a byte of the window of a running command. R185: "A model
  should give such a run no meaning (refuse it) rather than pick a value". Safe (log 9). -/
  | windowRace (a : Addr)
deriving DecidableEq, Repr

/-- The machine after reset (R32, R180): idle, no command and no response. The block has no
register, flag or mode to reset. `AW` is the value R5 suggests (log 1), `mem` lists nothing
(log 3), and the model's own fields are empty (log 4, log 6, log 8). -/
def State.reset : State :=
  { cfg := { aw := 32 }, mem := { cells := [] }, inputs := [], responses := [], draws := 0 }

end Sys2Proof.Machine
end

