-- ==== Sys2Proof/Machine/Ops.lean ====
section
/-! DEFINITION. The operations every command is made of: buffer memory (spec/20_memory.md R41,
R43, R44, R45), the window check (R42), the response with or without an error
(spec/60_exceptions.md R150 to R155), and the completion of a command (spec/10_state.md R20). -/

namespace Sys2Proof.Machine

/-! ## Buffer memory -/

/-- What an address that the list of cells does not name reads as (log 3). -/
def Memory.unlisted : Byte := 0

/-- `MemRead(a, 1)` (R10, R43): the byte last written there (R45). -/
def Memory.read (m : Memory) (a : Nat) : Byte :=
  (m.cells.lookup a).getD Memory.unlisted

/-- The cells with `(a, b)` put before the first cell of a greater address. -/
def insertCell (a : Nat) (b : Byte) : List Host.Cell → List Host.Cell
  | [] => [(a, b)]
  | c :: cs => if a < c.1 then (a, b) :: c :: cs else c :: insertCell a b cs

/-- The cells without any of address `a`. -/
def eraseCell (a : Nat) (cells : List Host.Cell) : List Host.Cell :=
  cells.filter fun c => c.1 != a

/-- `MemWrite(a, 1, b)` (R10, R43). The canonical form is kept: a byte equal to what an unlisted
address reads as is not listed. -/
def Memory.write (m : Memory) (a : Nat) (b : Byte) : Memory :=
  if b = Memory.unlisted then { cells := eraseCell a m.cells }
  else { cells := insertCell a b (eraseCell a m.cells) }

/-- `SrcReadSeq` (R41): the `n` bytes from address `a` on, in ascending order (R44). -/
def Memory.readSeq (m : Memory) (a : Nat) : Nat → List Byte
  | 0 => []
  | n + 1 => m.read a :: m.readSeq (a + 1) n

/-- `DstWriteSeq` (R41): the bytes one after another from address `a` on, in ascending order
(R44). -/
def Memory.writeSeq (m : Memory) (a : Nat) : List Byte → Memory
  | [] => m
  | b :: bs => (m.write a b).writeSeq (a + 1) bs

/-- Addresses strictly rise along the cells. -/
def risingCells : List Host.Cell → Bool
  | [] => true
  | [_] => true
  | c :: d :: cs => decide (c.1 < d.1) && risingCells (d :: cs)

/-- The canonical form: addresses strictly rising, no cell equal to what an unlisted address reads
as. Equal memories are then equal data. -/
def Memory.wf (m : Memory) : Bool :=
  risingCells m.cells && m.cells.all fun c => c.2 != Memory.unlisted

/-- Every listed address exists: it is below `2^AW` (R27). -/
def Memory.within (cfg : Config) (m : Memory) : Bool :=
  m.cells.all fun c => decide (c.1 < cfg.top)

/-! ## The window -/

/-- Window validity (R42): the window ends at or below the top of the address space. The sum is an
exact integer; addresses never wrap. -/
def windowValid (cfg : Config) (ptr : Addr) (avail : Count) : Bool :=
  decide (ptr.toNat + avail.toNat ≤ cfg.top)

/-! ## The answer to a command -/

/-- What a command does: the bytes it writes at window indices 0, 1, 2, … (every footprint of R54
has this shape) and the response it delivers. -/
structure Reply where
  stores : List Byte
  rsp : Rsp
deriving DecidableEq, Repr

/-- The code of each status, `status[2:0]` (R151). -/
def Status.code : Status → BitVec 3
  | .ok => 0
  | .bufferTooSmall => 1
  | .valueTooLarge => 2
  | .stringTooLong => 3
  | .badCommand => 7

/-- A response that carries `status` and `consumed` and no result: every result field is zero, the
payload empty (R64 (c)). -/
def statusRsp (st : Status) (consumed : Nat) : Rsp :=
  { status := st, consumed := BitVec.ofNat 64 consumed, val := 0, x := 0, y := 0, z := 0, pay := [] }

/-- `ok(consumed = n)` of R10, before the result fields a command adds. -/
def okRsp (consumed : Nat) : Rsp :=
  statusRsp .ok consumed

/-- TAKING AN EXCEPTION: `fail <Status>(c)` of R10. The block delivers the response and nothing
else changes: nothing is saved, no mode, mask or vector exists (R150, R160). There is nothing to
return from (R161). A decoder, or an encoder that fails before its first write, stores nothing. -/
def fail (st : Status) (consumed : Nat) : Reply :=
  { stores := [], rsp := statusRsp st consumed }

/-- The answer to a reserved code or to a bad window: `BadCommand`, `consumed = 0`, no memory
access (R66, R153). -/
def badCommand : Reply :=
  fail .badCommand 0

/-- A command that writes nothing and answers `rsp`. -/
def answer (rsp : Rsp) : Reply :=
  { stores := [], rsp := rsp }

/-- The window test that precedes every window-using command (R42, R66, R156). -/
def guardWindow (cfg : Config) (ptr : Addr) (avail : Count) (r : Reply) : Reply :=
  if windowValid cfg ptr avail then r else badCommand

/-- What all four encoders do with the complete encoding `e` (R86, R87, R115, R131): with room for
all of it, it is written and counted; otherwise its first `avail` bytes are written and the answer
is `BufferTooSmall` with `consumed = avail` (R154, R155). -/
def storeEncoding (avail : Nat) (e : List Byte) : Reply :=
  if avail < e.length then
    { stores := e.take avail, rsp := statusRsp .bufferTooSmall avail }
  else
    { stores := e, rsp := okRsp e.length }

/-! ## Updates of State, and completing a command -/

/-- The state with another buffer memory. -/
def State.setMem (s : State) (m : Memory) : State :=
  { s with mem := m }

/-- The state with one more response delivered (R150). -/
def State.deliver (s : State) (r : Rsp) : State :=
  { s with responses := s.responses ++ [r] }

/-- The state with other inputs to come. -/
def State.setInputs (s : State) (inputs : List Event) : State :=
  { s with inputs := inputs }

/-- The state after one free value has been drawn (log 8). -/
def State.countDraw (s : State) : State :=
  { s with draws := s.draws + 1 }

/-- The transition of R20: the command's bytes are written from `base` on, before its response is
delivered (R50 (a)). -/
def State.complete (s : State) (base : Nat) (r : Reply) : State :=
  (s.setMem (s.mem.writeSeq base r.stores)).deliver r.rsp

end Sys2Proof.Machine
end

