-- ==== Sys2Proof/Machine/Operands.lean ====
section
/-! DEFINITION. How operands are taken from the command and results put into the response
(spec/30_encoding.md R64, R67), the window as a sequence (spec/20_memory.md R40, R41), and the
limits the source fixes (spec/00_scope.md R5). -/

namespace Sys2Proof.Machine

/-- Payload bits per encoded byte (R5). -/
def groupBits : Nat := 7

/-- `MAXB(W)`: the greatest number of bytes of one encoded `w`-bit integer, 5 for 32 bits and 10
for 64 bits (R5). -/
def maxBytes (w : Nat) : Nat := (w + groupBits - 1) / groupBits

/-- The greatest value of a Packet's length prefix, `2^31 - 1` (R5, R132). -/
def pktMaxLen : Nat := 2147483647

/-- A 32-bit integer operand: `cmd.val[31:0]`, the upper half ignored (R67 (a)). -/
def operand32 (val : Word64) : Word32 := val.extractLsb' 0 32

/-- A 64-bit integer operand: the whole of `cmd.val` (R67 (b)). -/
def operand64 (val : Word64) : Word64 := val

/-- A decoded 32-bit vector in the 64-bit `rsp.val`: `sext_64` (R64 (b)). -/
def result32 (v : Word32) : Word64 := v.signExtend 64

/-- Window bytes `i` to `i + n - 1` (R40, R41): byte `i` of the window is at `ptr + i`. -/
def windowSeq (m : Memory) (ptr : Addr) (i n : Nat) : List Byte :=
  m.readSeq (ptr.toNat + i) n

/-- The bytes of the window that a `w`-bit integer decode can reach: "read on demand" (R103, R104)
means that no byte after the first `MAXB(w)` is ever read (log 15). -/
def windowInt (w : Nat) (m : Memory) (ptr : Addr) (avail : Count) : List Byte :=
  windowSeq m ptr 0 (min avail.toNat (maxBytes w))

end Sys2Proof.Machine
end

