-- ==== Sys2Proof/Machine/Varint.lean ====
section
/-! DEFINITION. varint_encoder and varint_decoder: the wire format, the size, and the six commands
(spec/40_varint_encoder.md, spec/41_varint_decoder.md). -/

namespace Sys2Proof.Machine

/-! ## The encoder's functions -/

/-- `bit_length(u)`: the position of the highest set bit plus one, with `bit_length(0) = 1`
(R8). -/
def bitLength (u : Nat) : Nat := if u = 0 then 1 else Nat.log2 u + 1

/-- `Size_W(v)`: the encoded length in bytes (R81). -/
def intSize {w : Nat} (v : BitVec w) : Nat := 1 + (bitLength v.toNat - 1) / groupBits

/-- `g_k`: bits `7k+6 .. 7k` of `u`, bits above `W-1` taken as 0 (R82). -/
def intGroup (u k : Nat) : BitVec 7 := BitVec.ofNat 7 (u >>> (groupBits * k))

/-- `B_k = {c_k, g_k}`: byte `k` of the encoding of `u` in `size` bytes (R82). -/
def intByte (u size k : Nat) : Byte := BitVec.ofBool (decide (k + 1 < size)) ++ intGroup u k

/-- `EncBytes_W(v)`: the wire format of a VarInt (`w = 32`) or a VarLong (`w = 64`) (R82). -/
def intBytes {w : Nat} (v : BitVec w) : List Byte :=
  (List.range (intSize v)).map (intByte v.toNat (intSize v))

/-! ## The decoder's function -/

/-- The result of `DecSeq_W` (R100): a value and the bytes it took, or an error and its count. -/
inductive IntResult (w : Nat) where
  | ok (value : BitVec w) (n : Nat)
  | err (st : Status) (c : Nat)
deriving DecidableEq, Repr

/-- `trunc_W( zext(b[6:0]) << (7*i) )`: the bits that byte `i` contributes; bits that land above
`W-1` are dropped (R101, R102 (a)). -/
def intContribution (w i : Nat) (b : Byte) : BitVec w :=
  ((b.extractLsb' 0 7).setWidth w) <<< (groupBits * i)

/-- The loop of R101 from index `i` on, with `left` more bytes allowed. The test for the end of the
sequence comes before the byte is looked at; when it fails, `i` bytes were available. -/
def decodeIntFrom (w : Nat) : (left i : Nat) → (acc : BitVec w) → List Byte → IntResult w
  | 0, _, _, _ => .err .valueTooLarge (maxBytes w)
  | _ + 1, i, _, [] => .err .bufferTooSmall i
  | left + 1, i, acc, b :: bs =>
    let acc' := acc ||| intContribution w i b
    if b.getLsbD 7 then decodeIntFrom w left (i + 1) acc' bs else .ok acc' (i + 1)

/-- `DecSeq_W(s)` (R101). -/
def decodeInt (w : Nat) (s : List Byte) : IntResult w :=
  decodeIntFrom w (maxBytes w) 0 0 s

/-! ## Answers of the six commands -/

/-- The answer of `SIZE_VARINT` (R84). -/
def sizeVarintReply (val : Word64) : Reply :=
  answer (okRsp (intSize (operand32 val)))

/-- The answer of `SIZE_VARLONG` (R85). -/
def sizeVarlongReply (val : Word64) : Reply :=
  answer (okRsp (intSize (operand64 val)))

/-- The answer of `ENC_VARINT` (R86). -/
def encVarintReply (cfg : Config) (val : Word64) (ptr : Addr) (avail : Count) : Reply :=
  guardWindow cfg ptr avail (storeEncoding avail.toNat (intBytes (operand32 val)))

/-- The answer of `ENC_VARLONG` (R87). -/
def encVarlongReply (cfg : Config) (val : Word64) (ptr : Addr) (avail : Count) : Reply :=
  guardWindow cfg ptr avail (storeEncoding avail.toNat (intBytes (operand64 val)))

/-- The answer of `DEC_VARINT` (R103). -/
def decVarintReply (cfg : Config) (m : Memory) (ptr : Addr) (avail : Count) : Reply :=
  guardWindow cfg ptr avail
    (match decodeInt 32 (windowInt 32 m ptr avail) with
      | .ok v n => answer { okRsp n with val := result32 v }
      | .err st c => fail st c)

/-- The answer of `DEC_VARLONG` (R104). -/
def decVarlongReply (cfg : Config) (m : Memory) (ptr : Addr) (avail : Count) : Reply :=
  guardWindow cfg ptr avail
    (match decodeInt 64 (windowInt 64 m ptr avail) with
      | .ok v n => answer { okRsp n with val := v }
      | .err st c => fail st c)

/-! ## Meanings -/

/-- `SIZE_VARINT` (R84). -/
def execSizeVarint (val : Word64) (s : State) : Host.Outcome State Fault Refusal :=
  .next (s.complete 0 (sizeVarintReply val))

/-- `SIZE_VARLONG` (R85). -/
def execSizeVarlong (val : Word64) (s : State) : Host.Outcome State Fault Refusal :=
  .next (s.complete 0 (sizeVarlongReply val))

/-- `ENC_VARINT` (R86). -/
def execEncVarint (val : Word64) (ptr : Addr) (avail : Count) (s : State) :
    Host.Outcome State Fault Refusal :=
  .next (s.complete ptr.toNat (encVarintReply s.cfg val ptr avail))

/-- `ENC_VARLONG` (R87). -/
def execEncVarlong (val : Word64) (ptr : Addr) (avail : Count) (s : State) :
    Host.Outcome State Fault Refusal :=
  .next (s.complete ptr.toNat (encVarlongReply s.cfg val ptr avail))

/-- `DEC_VARINT` (R103). -/
def execDecVarint (ptr : Addr) (avail : Count) (s : State) : Host.Outcome State Fault Refusal :=
  .next (s.complete ptr.toNat (decVarintReply s.cfg s.mem ptr avail))

/-- `DEC_VARLONG` (R104). -/
def execDecVarlong (ptr : Addr) (avail : Count) (s : State) : Host.Outcome State Fault Refusal :=
  .next (s.complete ptr.toNat (decVarlongReply s.cfg s.mem ptr avail))

end Sys2Proof.Machine
end

