-- ==== Sys2Proof/Machine/Packet.lean ====
section
/-! DEFINITION. packet_framer: length prefix, opcode and payload, and its two commands
(spec/43_packet_framer.md). -/

namespace Sys2Proof.Machine

/-- `L = Size_32(o) + len(p)`, an exact integer (R130, R132). -/
def pktLength (o : Word32) (pay : List Byte) : Nat := intSize o + pay.length

/-- `PktBytes(o, p)` (R130): prefix, opcode, payload. -/
def pktBytes (o : Word32) (pay : List Byte) : List Byte :=
  intBytes (BitVec.ofNat 32 (pktLength o pay)) ++ intBytes o ++ pay

/-- The answer of `ENC_PKT` (R131). The length check comes before any write and before the check
for room (R132, R156). -/
def encPktReply (cfg : Config) (val : Word64) (pay : List Byte) (ptr : Addr) (avail : Count) :
    Reply :=
  guardWindow cfg ptr avail
    (if pktMaxLen < pktLength (operand32 val) pay then fail .valueTooLarge 0
     else storeEncoding avail.toNat (pktBytes (operand32 val) pay))

/-- Step 4 of R135: the opcode, confined to the `L` bytes of the frame's body. `n` is the length of
the prefix. An opcode that does not end inside the frame is `ValueTooLarge` (R136 (b), (c)). -/
def pktBodyReply (n : Nat) (body : List Byte) : Reply :=
  match decodeInt 32 body with
  | .ok o m =>
    answer { okRsp (n + body.length) with val := result32 o, pay := body.drop m }
  | .err .valueTooLarge _ => fail .valueTooLarge (n + maxBytes 32)
  | .err _ _ => fail .valueTooLarge (n + body.length)

/-- The answer of `DEC_PKT` (R135): the prefix; `L < 0`; a truncated frame; the opcode. -/
def decPktReply (cfg : Config) (m : Memory) (ptr : Addr) (avail : Count) : Reply :=
  guardWindow cfg ptr avail
    (match decodeInt 32 (windowInt 32 m ptr avail) with
      | .err st c => fail st c
      | .ok l n =>
        if l.toInt < 0 then fail .valueTooLarge n
        else if avail.toNat < n + l.toNat then fail .bufferTooSmall avail.toNat
        else pktBodyReply n (windowSeq m ptr n l.toNat))

/-- `ENC_PKT` (R131). -/
def execEncPkt (val : Word64) (pay : List Byte) (ptr : Addr) (avail : Count) (s : State) :
    Host.Outcome State Fault Refusal :=
  .next (s.complete ptr.toNat (encPktReply s.cfg val pay ptr avail))

/-- `DEC_PKT` (R135). -/
def execDecPkt (ptr : Addr) (avail : Count) (s : State) : Host.Outcome State Fault Refusal :=
  .next (s.complete ptr.toNat (decPktReply s.cfg s.mem ptr avail))

end Sys2Proof.Machine
end

