-- ==== Sys2Proof/Machine/Position.lean ====
section
/-! DEFINITION. bit_field_packer: the 26/12/26 Position codec and its two commands
(spec/42_bit_field_packer.md). -/

namespace Sys2Proof.Machine

/-- Width of the fields x and z (`XW`, `ZW`, R5). -/
def xzWidth : Nat := 26
/-- Width of the field y (`YW`, R5). -/
def yWidth : Nat := 12
/-- Offset of x from bit 0 of the Position word (`XO`, R5). -/
def xOffset : Nat := 38
/-- Offset of y (`YO`, R5). -/
def yOffset : Nat := 26
/-- Offset of z (`ZO`, R5). -/
def zOffset : Nat := 0
/-- Bytes of an encoded Position (`POS_BYTES`, R5). -/
def posSize : Nat := 8

/-- `FieldInsert(val, width, offset)` (R112): the low `width` bits of `val` at bit `offset`, zero
elsewhere; bits of `val` at and above `width` are dropped without a check. -/
def fieldInsert (val : Word32) (width offset : Nat) : Word64 :=
  ((val.setWidth (min width 32)).setWidth 64) <<< offset

/-- `FieldExtract(v, width, offset)` (R113): the field, sign-extended to 64 bits. -/
def fieldExtract (v : Word64) (width offset : Nat) : Word64 :=
  (v <<< (64 - (width + offset))).sshiftRight (64 - width)

/-- `PosWord(x, y, z)` (R114): the OR of the three slots. -/
def posWord (x y z : Word32) : Word64 :=
  fieldInsert x xzWidth xOffset ||| fieldInsert y yWidth yOffset ||| fieldInsert z xzWidth zOffset

/-- `PosBytes(v)` (R118): big-endian, byte 0 carries bits 63..56. -/
def posBytes (v : Word64) : List Byte :=
  (List.range posSize).map fun k => v.extractLsb' (8 * (posSize - 1 - k)) 8

/-- `PosWordOf(s)` (R118): the bytes as a big-endian word. -/
def posWordOf (s : List Byte) : Word64 :=
  s.foldl (fun acc b => (acc <<< 8) ||| b.setWidth 64) 0

/-- The response of a Position decode: the three fields in their 32-bit containers (R116). -/
def posRsp (v : Word64) : Rsp :=
  { okRsp posSize with
    x := (fieldExtract v xzWidth xOffset).setWidth 32
    y := (fieldExtract v yWidth yOffset).setWidth 32
    z := (fieldExtract v xzWidth zOffset).setWidth 32 }

/-- The answer of `ENC_POS` (R115). There is no range check: `POS_STRICT = 0` (R5, R117 (c)). -/
def encPosReply (cfg : Config) (x y z : Word32) (ptr : Addr) (avail : Count) : Reply :=
  guardWindow cfg ptr avail (storeEncoding avail.toNat (posBytes (posWord x y z)))

/-- The answer of `DEC_POS` (R116). A window longer than 8 bytes is accepted
(90_conflicts.md C1). -/
def decPosReply (cfg : Config) (m : Memory) (ptr : Addr) (avail : Count) : Reply :=
  guardWindow cfg ptr avail
    (if avail.toNat < posSize then fail .bufferTooSmall avail.toNat
     else answer (posRsp (posWordOf (windowSeq m ptr 0 posSize))))

/-- `ENC_POS` (R115). -/
def execEncPos (x y z : Word32) (ptr : Addr) (avail : Count) (s : State) :
    Host.Outcome State Fault Refusal :=
  .next (s.complete ptr.toNat (encPosReply s.cfg x y z ptr avail))

/-- `DEC_POS` (R116). -/
def execDecPos (ptr : Addr) (avail : Count) (s : State) : Host.Outcome State Fault Refusal :=
  .next (s.complete ptr.toNat (decPosReply s.cfg s.mem ptr avail))

end Sys2Proof.Machine
end

