-- ==== Sys2Proof/Machine/Dispatch.lean ====
section
/-! DEFINITION. One arm per command: each is one direct call of the command's meaning. -/

namespace Sys2Proof.Machine

/-- The transition of one command (spec/10_state.md R20). -/
def exec (i : Instr) (s : State) : Host.Outcome State Fault Refusal :=
  match i with
  | .encVarint val ptr avail => Sys2Proof.Machine.execEncVarint val ptr avail s
  | .encVarlong val ptr avail => Sys2Proof.Machine.execEncVarlong val ptr avail s
  | .decVarint ptr avail => Sys2Proof.Machine.execDecVarint ptr avail s
  | .decVarlong ptr avail => Sys2Proof.Machine.execDecVarlong ptr avail s
  | .sizeVarint val => Sys2Proof.Machine.execSizeVarint val s
  | .sizeVarlong val => Sys2Proof.Machine.execSizeVarlong val s
  | .encPos x y z ptr avail => Sys2Proof.Machine.execEncPos x y z ptr avail s
  | .decPos ptr avail => Sys2Proof.Machine.execDecPos ptr avail s
  | .encPkt val pay ptr avail => Sys2Proof.Machine.execEncPkt val pay ptr avail s
  | .decPkt ptr avail => Sys2Proof.Machine.execDecPkt ptr avail s

end Sys2Proof.Machine
end

