-- ==== Sys2Proof/Machine/Port.lean ====
section
/-! DEFINITION. What reaches the block from outside: a command record at the command port
(spec/30_encoding.md R60, R66), the caller's writes of `Mem` between commands
(spec/70_reset_and_hazards.md R187), reset (R180, R183), and another agent's write while a command
runs (spec/20_memory.md R53, spec/70_reset_and_hazards.md R185). -/

namespace Sys2Proof.Machine

/-- What a command does in a state: the bytes it stores and its response. -/
def replyOf (i : Instr) (s : State) : Reply :=
  match i with
  | .encVarint val ptr avail => encVarintReply s.cfg val ptr avail
  | .encVarlong val ptr avail => encVarlongReply s.cfg val ptr avail
  | .decVarint ptr avail => decVarintReply s.cfg s.mem ptr avail
  | .decVarlong ptr avail => decVarlongReply s.cfg s.mem ptr avail
  | .sizeVarint val => sizeVarintReply val
  | .sizeVarlong val => sizeVarlongReply val
  | .encPos x y z ptr avail => encPosReply s.cfg x y z ptr avail
  | .decPos ptr avail => decPosReply s.cfg s.mem ptr avail
  | .encPkt val pay ptr avail => encPktReply s.cfg val pay ptr avail
  | .decPkt ptr avail => decPktReply s.cfg s.mem ptr avail

/-- The address of window byte 0; a size command has no window and stores nothing (R27, R40). -/
def baseOf (i : Instr) : Nat :=
  match i.window? with
  | some (ptr, _) => ptr.toNat
  | none => 0

/-- The caller presents a record: the ten commands have their transitions, and a reserved code is
answered with `BadCommand`, without any memory access (R66). -/
def present (c : Cmd) (s : State) : Host.Outcome State Fault Refusal :=
  match decode c with
  | .ok i => exec i s
  | .error (.reservedCode _) => .next (s.complete 0 badCommand)

/-- A write of one byte of `Mem` by the caller or another agent (R45, R187). An address at or above
`2^AW` does not exist (R27, log 11). -/
def outsideWrite (a : Addr) (b : Byte) (s : State) : Host.Outcome State Fault Refusal :=
  if a.toNat < s.cfg.top then .next (s.setMem (s.mem.write a.toNat b))
  else .fault (.noSuchAddress a)

/-- Reset while no command is in progress: the block has no state to set, and `Mem` is not touched
(R32, R180). -/
def resetIdle (s : State) : Host.Outcome State Fault Refusal :=
  .next s

/-- How many bytes an abandoned command had written: a free value `j`, `0 <= j <=` the number of
bytes the command would have written (R183, log 8). -/
def abandonedCount (draw total : Nat) : Nat :=
  Config.abandonPoint draw % (total + 1)

/-- Reset while the command of record `c` is in progress (R183): no response is ever delivered;
the first `j` of the bytes it would have written are in its window, all other bytes are old. -/
def resetDuring (c : Cmd) (s : State) : Host.Outcome State Fault Refusal :=
  match decode c with
  | .ok i =>
    let bytes := (replyOf i s).stores
    .next ((s.setMem (s.mem.writeSeq (baseOf i)
      (bytes.take (abandonedCount s.draws bytes.length)))).countDraw)
  | .error (.reservedCode _) => .next s.countDraw

/-- The address is a byte of the window that the command may access (R40). A command without a
window, or with a bad one, accesses nothing (R27, R66). -/
def inWindow (cfg : Config) (i : Instr) (a : Nat) : Bool :=
  match i.window? with
  | some (ptr, avail) =>
    windowValid cfg ptr avail && decide (ptr.toNat ≤ a) && decide (a < ptr.toNat + avail.toNat)
  | none => false

/-- The address is a byte of the window of the command that record `c` stands for. -/
def racesWith (cfg : Config) (c : Cmd) (a : Nat) : Bool :=
  match decode c with
  | .ok i => inWindow cfg i a
  | .error _ => false

/-- Another agent writes a byte while the command of record `c` runs. Inside the command's window
the model refuses the run, as R185 asks (log 9). Elsewhere the write and the command do not touch
the same byte (R53), so their order does not matter (log 10). -/
def presentDuringWrite (c : Cmd) (a : Addr) (b : Byte) (s : State) :
    Host.Outcome State Fault Refusal :=
  if racesWith s.cfg c a.toNat then .refused (.windowRace a)
  else
    match outsideWrite a b s with
    | .next s' => present c s'
    | .fault r => .fault r
    | .refused r => .refused r

/-- One input from outside (R187). -/
def perform (e : Event) (s : State) : Host.Outcome State Fault Refusal :=
  match e with
  | .command c => present c s
  | .write a b => outsideWrite a b s
  | .reset => resetIdle s
  | .resetDuring c => resetDuring c s
  | .writeDuring c a b => presentDuringWrite c a b s

/-- The inputs with the command of a word of the opcode table put first (log 4, log 5). -/
def fetchInputs (w : Nat) (inputs : List Event) : List Event :=
  .command (Cmd.ofTableWord w) :: inputs

end Sys2Proof.Machine
end

