-- ==== Sys2Proof/Machine/Step.lean ====
section
/-! DEFINITION. One step: the oldest input is taken and performed (spec/10_state.md R20,
spec/70_reset_and_hazards.md R187). -/

namespace Sys2Proof.Machine

/-- One step. With an input waiting, it is removed and performed. With none, the block is idle, and
"idle holds no state to lose" (spec/60_exceptions.md R166, log 7). -/
def step (s : State) : Host.Outcome State Fault Refusal :=
  match s.inputs with
  | [] => .next s
  | e :: rest => perform e (s.setInputs rest)

/-- The state in which the command of a word of the opcode table is presented next: its record is
put before all other inputs, and nothing else changes. The table gives a row the bits of `op` only,
so every other field of the record is zero or empty, whatever `nbits` is (log 4, log 5). -/
def State.withFetchWord (s : State) (_nbits w : Nat) : State :=
  s.setInputs (fetchInputs w s.inputs)

end Sys2Proof.Machine
end

