-- ==== Sys2Proof/Safety.lean ====
section
/-! DEFINITION. The terms claims are stated in: a well-formed state, what the caller owes the block,
what a command leaves in the state, and the wire formats as plain arithmetic, written without the
model's own functions. -/

namespace Sys2Proof.Safety

open Sys2Proof.Machine

/-! ## Well-formed states and the caller's duties -/

/-- The invariant: a legal `AW` (R5), memory in its canonical form, and no listed address at or
above `2^AW` (R27). -/
def StateWf (s : State) : Prop :=
  s.cfg.wf = true ∧ s.mem.wf = true ∧ s.mem.within s.cfg = true

/-- What the caller owes (R185, R187): writes go to addresses that exist, and no agent writes a
byte of the window of a running command. -/
def Lawful (cfg : Config) : Event → Prop
  | .command _ => True
  | .write a _ => a.toNat < 2 ^ cfg.aw
  | .reset => True
  | .resetDuring _ => True
  | .writeDuring c a _ => a.toNat < 2 ^ cfg.aw ∧ ∀ i ptr avail, decode c = .ok i →
      i.window? = some (ptr, avail) → ptr.toNat + avail.toNat ≤ 2 ^ cfg.aw →
      ¬ (ptr.toNat ≤ a.toNat ∧ a.toNat < ptr.toNat + avail.toNat)

/-- The inputs that get a response: a command presented and not abandoned by reset (R150, R183). -/
def answered : Event → Bool
  | .command _ => true
  | .write _ _ => false
  | .reset => false
  | .resetDuring _ => false
  | .writeDuring _ _ _ => true

/-! ## What a command leaves -/

/-- The command's whole effect: `bytes` lie at `base`, `base + 1`, …; every other byte of memory
reads as before; the response `r` is delivered; nothing else of the state has changed. -/
def Effect (s t : State) (base : Nat) (bytes : List Byte) (r : Rsp) : Prop :=
  t = { s with mem := t.mem, responses := s.responses ++ [r] } ∧
  (∀ k, k < bytes.length → bytes[k]? = some (t.mem.read (base + k))) ∧
  (∀ a, a < base ∨ base + bytes.length ≤ a → t.mem.read a = s.mem.read a)

/-- The state after a command that writes nothing and answers `r`. -/
def Answered (s : State) (r : Rsp) : State :=
  { s with responses := s.responses ++ [r] }

/-- A response with the given status and count whose result fields are all zero (R64 (c)). -/
def bare (st : Status) (consumed : Nat) : Rsp :=
  { status := st, consumed := BitVec.ofNat 64 consumed, val := 0, x := 0, y := 0, z := 0, pay := [] }

/-- The answer to a window past the top of the address space (R42, R66). -/
def RejectsBadWindow (i : Instr) (s : State) (ptr : Addr) (avail : Count) : Prop :=
  2 ^ s.cfg.aw < ptr.toNat + avail.toNat → exec i s = .next (Answered s (bare .badCommand 0))

/-- The record is one of those that are answered with `BadCommand`: a reserved code, or a window
past the top of the address space in a command that uses a window (R42, R61, R66). -/
abbrev Malformed (cfg : Config) (c : Cmd) : Prop :=
  (c.op = 0x6 ∨ c.op = 0x7 ∨ c.op = 0x9 ∨ c.op = 0xB ∨ c.op = 0xD ∨ c.op = 0xF) ∨
  ((c.op = 0x0 ∨ c.op = 0x1 ∨ c.op = 0x2 ∨ c.op = 0x3 ∨ c.op = 0x8 ∨ c.op = 0xA ∨ c.op = 0xC ∨
      c.op = 0xE) ∧ 2 ^ cfg.aw < c.ptr.toNat + c.avail.toNat)

/-- What an encode command with the complete encoding `e` does in a good window: all of `e` if the
window has room for it, otherwise its first `avail` bytes and `BufferTooSmall` with
`consumed = avail` (R154, R155). -/
def StoresEncoding (i : Instr) (s : State) (ptr : Addr) (avail : Count) (e : List Byte) : Prop :=
  ∃ t, exec i s = .next t ∧
    (e.length ≤ avail.toNat → Effect s t ptr.toNat e (bare .ok e.length)) ∧
    (avail.toNat < e.length →
      Effect s t ptr.toNat (e.take avail.toNat) (bare .bufferTooSmall avail.toNat))

/-- Byte `k` of the window that starts at `ptr` (R40, R41). -/
def windowByte (s : State) (ptr : Addr) (k : Nat) : Byte :=
  s.mem.read (ptr.toNat + k)

/-- The command moved to a window of the same length that starts at `q`. -/
def movedTo (q : Addr) : Instr → Instr
  | .encVarint val _ avail => .encVarint val q avail
  | .encVarlong val _ avail => .encVarlong val q avail
  | .decVarint _ avail => .decVarint q avail
  | .decVarlong _ avail => .decVarlong q avail
  | .sizeVarint val => .sizeVarint val
  | .sizeVarlong val => .sizeVarlong val
  | .encPos x y z _ avail => .encPos x y z q avail
  | .decPos _ avail => .decPos q avail
  | .encPkt val pay _ avail => .encPkt val pay q avail
  | .decPkt _ avail => .decPkt q avail

/-! ## The wire formats, as arithmetic -/

/-- `S` is the size of the unsigned integer `u`: the least `S >= 1` with `u < 2^(7*S)` (R81). -/
def IsSize (u S : Nat) : Prop :=
  1 ≤ S ∧ u < 2 ^ (7 * S) ∧ ∀ S', 1 ≤ S' → u < 2 ^ (7 * S') → S ≤ S'

/-- `e` is the encoding of `u` in `S` bytes: byte `k` is group `k`, plus 128 on all but the last
(R82). -/
def IsEncoding (u S : Nat) (e : List Byte) : Prop :=
  e.length = S ∧ ∀ k, k < S →
    e[k]? = some (BitVec.ofNat 8 (u / 2 ^ (7 * k) % 128 + if k + 1 < S then 128 else 0))

/-- The continuation bit of a byte (R82). -/
abbrev continues (b : Byte) : Prop := 128 ≤ b.toNat

/-- The bytes `f 0, f 1, …` hold an encoded integer of `n` bytes: byte `n-1` is the first without a
continuation bit (R68 (a), R101). -/
abbrev Terminates (f : Nat → Byte) (n : Nat) : Prop :=
  1 ≤ n ∧ (∀ i, i < n - 1 → continues (f i)) ∧ ¬ continues (f (n - 1))

/-- The integer that the low 7 bits of the first `n` bytes spell, least significant group first
(R101), before it is cut to the width of the accumulator. -/
def spelled (f : Nat → Byte) : Nat → Nat
  | 0 => 0
  | n + 1 => spelled f n + (f n).toNat % 128 * 2 ^ (7 * n)

/-- The signed value of the `width` bits of `v` from bit `offset` up, without shifts (R113). -/
def fieldOf (v width offset : Nat) : Int :=
  let f := v / 2 ^ offset % 2 ^ width
  if f < 2 ^ (width - 1) then f else (f : Int) - 2 ^ width

/-- The 64-bit Position word as a number: `{x[25:0], y[11:0], z[25:0]}` (R114). -/
def positionWord (x y z : Word32) : Nat :=
  x.toNat % 2 ^ 26 * 2 ^ 38 + y.toNat % 2 ^ 12 * 2 ^ 26 + z.toNat % 2 ^ 26

/-- `e` is the word `v` as 8 bytes, most significant first (R118). -/
def IsBigEndian (v : Nat) (e : List Byte) : Prop :=
  e.length = 8 ∧ ∀ k, k < 8 → e[k]? = some (BitVec.ofNat 8 (v / 2 ^ (8 * (7 - k))))

/-- The 8 bytes `f 0` to `f 7` as a big-endian number (R118). -/
def bigEndian (f : Nat → Byte) : Nat :=
  (f 0).toNat * 2 ^ 56 + (f 1).toNat * 2 ^ 48 + (f 2).toNat * 2 ^ 40 + (f 3).toNat * 2 ^ 32 +
    (f 4).toNat * 2 ^ 24 + (f 5).toNat * 2 ^ 16 + (f 6).toNat * 2 ^ 8 + (f 7).toNat

/-- `e` is the frame of opcode `o` and payload `pay`: length prefix, opcode, payload (R130). -/
def IsFrame (o : Nat) (pay e : List Byte) : Prop :=
  ∃ m k op pre, IsSize o m ∧ IsEncoding o m op ∧ IsSize (m + pay.length) k ∧
    IsEncoding (m + pay.length) k pre ∧ e = pre ++ op ++ pay

/-! ## What an integer decode answers -/

/-- What a decode of an integer of at most `maxb` bytes answers in a good window whose byte `k` is
`f k`: the value that the bytes up to the first without a continuation bit spell, or
`BufferTooSmall`, or `ValueTooLarge` (R101, R103, R104). -/
def DecodesInt (i : Instr) (s : State) (avail : Count) (maxb : Nat) (f : Nat → Byte)
    (result : Nat → Word64) : Prop :=
  (∀ n, Terminates f n → n ≤ maxb → n ≤ avail.toNat →
    exec i s = .next (Answered s { bare .ok n with val := result (spelled f n) })) ∧
  (avail.toNat < maxb → (∀ k, k < avail.toNat → continues (f k)) →
    exec i s = .next (Answered s (bare .bufferTooSmall avail.toNat))) ∧
  (maxb ≤ avail.toNat → (∀ k, k < maxb → continues (f k)) →
    exec i s = .next (Answered s (bare .valueTooLarge maxb)))

/-- What `DEC_PKT` answers once its prefix has ended after `n` bytes with the vector `l`, in a
window whose byte `k` is `f k` (steps 2 to 4 of R135; R136). -/
def DecodesFrame (i : Instr) (s : State) (avail : Count) (f : Nat → Byte) (n : Nat)
    (l : Word32) : Prop :=
  let g := fun k => f (n + k)
  (l.toInt < 0 → exec i s = .next (Answered s (bare .valueTooLarge n))) ∧
  (0 ≤ l.toInt → avail.toNat < n + l.toNat →
    exec i s = .next (Answered s (bare .bufferTooSmall avail.toNat))) ∧
  (0 ≤ l.toInt → n + l.toNat ≤ avail.toNat → 5 ≤ l.toNat → (∀ k, k < 5 → continues (g k)) →
    exec i s = .next (Answered s (bare .valueTooLarge (n + 5)))) ∧
  (0 ≤ l.toInt → n + l.toNat ≤ avail.toNat → l.toNat < 5 →
    (∀ k, k < l.toNat → continues (g k)) →
    exec i s = .next (Answered s (bare .valueTooLarge (n + l.toNat)))) ∧
  (0 ≤ l.toInt → n + l.toNat ≤ avail.toNat → ∀ m, Terminates g m → m ≤ 5 → m ≤ l.toNat →
    ∃ pay : List Byte, pay.length = l.toNat - m ∧
      (∀ k, k < pay.length → pay[k]? = some (g (m + k))) ∧
      exec i s = .next (Answered s { bare .ok (n + l.toNat) with
        val := (BitVec.ofNat 32 (spelled g m)).signExtend 64, pay := pay }))

end Sys2Proof.Safety
end

