-- ==== Sys2Proof/Certificates/Slice0/Obligations.lean ====
section
/-! DEFINITION. What is claimed of the model, for the provers. Each statement's docstring names the
rule of spec/ it formalises, or says that it is the model's own choice and names the log entry. -/

open Sys2Proof Sys2Proof.Machine Sys2Proof.Safety

/-! ## Records and codes -/

/-- Presenting a command and decoding the record gives the command back, with every operand at every
value; and a record decodes to a command exactly when its code and the fields of the command's
format are those of the command, whatever the other fields hold (30_encoding.md R61, R62, R65). -/
def Obligations.DecodeAndEncodeAgree : Prop :=
  (∀ i : Instr, decode (encode i) = .ok i) ∧
  ∀ (c : Cmd) (i : Instr), decode c = .ok i ↔ c.keep i.format = encode i

/-- R65: a field that the command's format does not list may hold any bits, and the response and
the memory effect are the same. -/
def Obligations.IgnoredFieldsHaveNoInfluence : Prop :=
  ∀ (c c' : Cmd) (i : Instr) (s : State) (rest : List Event), decode c = .ok i →
    c'.keep i.format = c.keep i.format →
    step { s with inputs := .command c' :: rest } = step { s with inputs := .command c :: rest }

/-- The records without a command are exactly those with one of the six reserved codes (R61). -/
def Obligations.SixCodesAreReserved : Prop :=
  ∀ c : Cmd, (∀ i, decode c ≠ .ok i) ↔
    c.op = 0x6 ∨ c.op = 0x7 ∨ c.op = 0x9 ∨ c.op = 0xB ∨ c.op = 0xD ∨ c.op = 0xF

/-- R42, R66, R153: a reserved code, or a window-using command whose window runs past the top of the
address space, is answered with `BadCommand`, `consumed = 0`, all result fields zero, and no memory
access; no other record is answered so. -/
def Obligations.MalformedCommandAnswersBadCommand : Prop :=
  ∀ (s : State) (c : Cmd) (rest : List Event), s.inputs = .command c :: rest →
    (Malformed s.cfg c →
      step s = .next (Answered { s with inputs := rest } (bare .badCommand 0))) ∧
    (¬ Malformed s.cfg c →
      ∃ t r, step s = .next t ∧ t.responses = s.responses ++ [r] ∧ r.status ≠ .badCommand)

/-- The words of a few rows of the opcode table decode to their commands, and a reserved word to
none (R61); that the fields which the table gives no bits are zero is the model's choice (log 5). -/
def Obligations.TableWordsDecode : Prop :=
  decodeTableWord 8 0b0000 = some (.encVarint 0 0 0) ∧
  decodeTableWord 8 0b0011 = some (.decVarlong 0 0) ∧
  decodeTableWord 8 0b0100 = some (.sizeVarint 0) ∧
  decodeTableWord 8 0b1000 = some (.encPos 0 0 0 0 0) ∧
  decodeTableWord 8 0b1100 = some (.encPkt 0 [] 0 0) ∧
  decodeTableWord 8 0b1110 = some (.decPkt 0 0) ∧
  decodeTableWord 8 0b1001 = none

/-- `op` as three sub-fields, for each of the ten commands: unit, direction, width (R61). -/
def Obligations.CodesHaveUnitDirectionWidth : Prop :=
  ∀ (i : Instr), (opUnit (encode i).op, opDir (encode i).op, opWide (encode i).op) =
    match i with
    | .encVarint _ _ _ => (0, false, false)
    | .encVarlong _ _ _ => (0, false, true)
    | .decVarint _ _ => (0, true, false)
    | .decVarlong _ _ => (0, true, true)
    | .sizeVarint _ => (1, false, false)
    | .sizeVarlong _ => (1, false, true)
    | .encPos _ _ _ _ _ => (2, false, false)
    | .decPos _ _ => (2, true, false)
    | .encPkt _ _ _ _ => (3, false, false)
    | .decPkt _ _ => (3, true, false)

/-! ## Steps, reset and the invariant -/

/-- When the oldest input is a record that decodes to `i`, the step is `exec` of `i` in the state
without that input (R20). -/
def Obligations.StepRunsThePresentedCommand : Prop :=
  ∀ (s : State) (c : Cmd) (i : Instr) (rest : List Event), s.inputs = .command c :: rest →
    decode c = .ok i → step s = exec i { s with inputs := rest }

/-- With no input waiting a step changes nothing: the model's choice (log 7), from R166. -/
def Obligations.StepWithNoInputIsIdle : Prop :=
  ∀ s : State, s.inputs = [] → step s = .next s

/-- R180: reset while no command is in progress touches neither `Mem` nor anything else. -/
def Obligations.ResetWhileIdleChangesNothing : Prop :=
  ∀ (s : State) (rest : List Event), s.inputs = .reset :: rest →
    step s = .next { s with inputs := rest }

/-- The reset state satisfies the invariant, holds no command and no response (R32, R180); its
memory and `AW` are the model's choice (log 1, log 3). -/
def Obligations.ResetStateIsWellFormed : Prop :=
  StateWf State.reset ∧ State.reset.inputs = [] ∧ State.reset.responses = []

/-- Every step keeps the invariant: a legal `AW` (R5), memory in its one canonical form, and no byte
listed at an address that does not exist (R27). -/
def Obligations.StepKeepsStateWellFormed : Prop :=
  ∀ s t : State, StateWf s → step s = .next t → StateWf t

/-! ## The ten commands -/

/-- R84: `SIZE_VARINT`. -/
def Obligations.SizeVarintAnswersTheSize : Prop :=
  ∀ (c : Cmd) (s : State), c.op = 0x4 → decode c = .ok (.sizeVarint c.val) ∧
    ∃ n, IsSize (c.val.toNat % 2 ^ 32) n ∧ n ≤ 5 ∧
      exec (.sizeVarint c.val) s = .next (Answered s (bare .ok n))

/-- R85: `SIZE_VARLONG`. -/
def Obligations.SizeVarlongAnswersTheSize : Prop :=
  ∀ (c : Cmd) (s : State), c.op = 0x5 → decode c = .ok (.sizeVarlong c.val) ∧
    ∃ n, IsSize c.val.toNat n ∧ n ≤ 10 ∧
      exec (.sizeVarlong c.val) s = .next (Answered s (bare .ok n))

/-- R86: `ENC_VARINT`. -/
def Obligations.EncVarintStoresTheEncoding : Prop :=
  ∀ (c : Cmd) (s : State), c.op = 0x0 → decode c = .ok (.encVarint c.val c.ptr c.avail) ∧
    RejectsBadWindow (.encVarint c.val c.ptr c.avail) s c.ptr c.avail ∧
    (c.ptr.toNat + c.avail.toNat ≤ 2 ^ s.cfg.aw →
      ∃ n e, IsSize (c.val.toNat % 2 ^ 32) n ∧ n ≤ 5 ∧ IsEncoding (c.val.toNat % 2 ^ 32) n e ∧
        StoresEncoding (.encVarint c.val c.ptr c.avail) s c.ptr c.avail e)

/-- R87: `ENC_VARLONG`. -/
def Obligations.EncVarlongStoresTheEncoding : Prop :=
  ∀ (c : Cmd) (s : State), c.op = 0x1 → decode c = .ok (.encVarlong c.val c.ptr c.avail) ∧
    RejectsBadWindow (.encVarlong c.val c.ptr c.avail) s c.ptr c.avail ∧
    (c.ptr.toNat + c.avail.toNat ≤ 2 ^ s.cfg.aw →
      ∃ n e, IsSize c.val.toNat n ∧ n ≤ 10 ∧ IsEncoding c.val.toNat n e ∧
        StoresEncoding (.encVarlong c.val c.ptr c.avail) s c.ptr c.avail e)

/-- R103: `DEC_VARINT`; the 32-bit accumulator drops what does not fit (R102). -/
def Obligations.DecVarintAnswersTheValue : Prop :=
  ∀ (c : Cmd) (s : State), c.op = 0x2 → decode c = .ok (.decVarint c.ptr c.avail) ∧
    RejectsBadWindow (.decVarint c.ptr c.avail) s c.ptr c.avail ∧
    (c.ptr.toNat + c.avail.toNat ≤ 2 ^ s.cfg.aw →
      DecodesInt (.decVarint c.ptr c.avail) s c.avail 5 (windowByte s c.ptr)
        fun v => (BitVec.ofNat 32 v).signExtend 64)

/-- R104: `DEC_VARLONG`; the 64-bit accumulator drops what does not fit (R102). -/
def Obligations.DecVarlongAnswersTheValue : Prop :=
  ∀ (c : Cmd) (s : State), c.op = 0x3 → decode c = .ok (.decVarlong c.ptr c.avail) ∧
    RejectsBadWindow (.decVarlong c.ptr c.avail) s c.ptr c.avail ∧
    (c.ptr.toNat + c.avail.toNat ≤ 2 ^ s.cfg.aw →
      DecodesInt (.decVarlong c.ptr c.avail) s c.avail 10 (windowByte s c.ptr)
        fun v => BitVec.ofNat 64 v)

/-- R115: `ENC_POS`. -/
def Obligations.EncPosStoresTheWord : Prop :=
  ∀ (c : Cmd) (s : State), c.op = 0x8 → decode c = .ok (.encPos c.x c.y c.z c.ptr c.avail) ∧
    RejectsBadWindow (.encPos c.x c.y c.z c.ptr c.avail) s c.ptr c.avail ∧
    (c.ptr.toNat + c.avail.toNat ≤ 2 ^ s.cfg.aw →
      ∃ e, IsBigEndian (positionWord c.x c.y c.z) e ∧
        StoresEncoding (.encPos c.x c.y c.z c.ptr c.avail) s c.ptr c.avail e)

/-- R116: `DEC_POS`. -/
def Obligations.DecPosAnswersTheFields : Prop :=
  ∀ (c : Cmd) (s : State), c.op = 0xA → decode c = .ok (.decPos c.ptr c.avail) ∧
    RejectsBadWindow (.decPos c.ptr c.avail) s c.ptr c.avail ∧
    (c.ptr.toNat + c.avail.toNat ≤ 2 ^ s.cfg.aw →
      (c.avail.toNat < 8 → exec (.decPos c.ptr c.avail) s =
        .next (Answered s (bare .bufferTooSmall c.avail.toNat))) ∧
      (8 ≤ c.avail.toNat → exec (.decPos c.ptr c.avail) s =
        .next (Answered s { bare .ok 8 with
          x := BitVec.ofInt 32 (fieldOf (bigEndian (windowByte s c.ptr)) 26 38)
          y := BitVec.ofInt 32 (fieldOf (bigEndian (windowByte s c.ptr)) 12 26)
          z := BitVec.ofInt 32 (fieldOf (bigEndian (windowByte s c.ptr)) 26 0) })))

/-- R131, R132: `ENC_PKT`. The length check comes before the check for room. -/
def Obligations.EncPktStoresTheFrame : Prop :=
  ∀ (c : Cmd) (s : State), c.op = 0xC → decode c = .ok (.encPkt c.val c.pay c.ptr c.avail) ∧
    RejectsBadWindow (.encPkt c.val c.pay c.ptr c.avail) s c.ptr c.avail ∧
    (c.ptr.toNat + c.avail.toNat ≤ 2 ^ s.cfg.aw →
      ∃ m, IsSize (c.val.toNat % 2 ^ 32) m ∧
        (2147483647 < m + c.pay.length → exec (.encPkt c.val c.pay c.ptr c.avail) s =
          .next (Answered s (bare .valueTooLarge 0))) ∧
        (m + c.pay.length ≤ 2147483647 → ∃ e, IsFrame (c.val.toNat % 2 ^ 32) c.pay e ∧
          StoresEncoding (.encPkt c.val c.pay c.ptr c.avail) s c.ptr c.avail e))

/-- R135, R136: `DEC_PKT`. -/
def Obligations.DecPktAnswersTheFrame : Prop :=
  ∀ (c : Cmd) (s : State), c.op = 0xE → decode c = .ok (.decPkt c.ptr c.avail) ∧
    RejectsBadWindow (.decPkt c.ptr c.avail) s c.ptr c.avail ∧
    (c.ptr.toNat + c.avail.toNat ≤ 2 ^ s.cfg.aw →
      (c.avail.toNat < 5 → (∀ k, k < c.avail.toNat → continues (windowByte s c.ptr k)) →
        exec (.decPkt c.ptr c.avail) s =
          .next (Answered s (bare .bufferTooSmall c.avail.toNat))) ∧
      (5 ≤ c.avail.toNat → (∀ k, k < 5 → continues (windowByte s c.ptr k)) →
        exec (.decPkt c.ptr c.avail) s = .next (Answered s (bare .valueTooLarge 5))) ∧
      (∀ n, Terminates (windowByte s c.ptr) n → n ≤ 5 → n ≤ c.avail.toNat →
        DecodesFrame (.decPkt c.ptr c.avail) s c.avail (windowByte s c.ptr) n
          (BitVec.ofNat 32 (spelled (windowByte s c.ptr) n))))

/-! ## What holds of every command -/

/-- Every command, in every state, ends in exactly one response and changes nothing of the state but
memory (R20, R150). -/
def Obligations.EveryCommandEndsInOneResponse : Prop :=
  ∀ (i : Instr) (s : State), ∃ (m : Memory) (r : Rsp),
    exec i s = .next { s with mem := m, responses := s.responses ++ [r] }

/-- What a command answers and writes does not depend on earlier responses, on later inputs or on
the model's counter: nothing is sticky (R22, R24, R161). -/
def Obligations.EarlierCommandsHaveNoInfluence : Prop :=
  ∀ (i : Instr) (s s' : State), s'.cfg = s.cfg → s'.mem = s.mem → ∃ (m : Memory) (r : Rsp),
    exec i s = .next { s with mem := m, responses := s.responses ++ [r] } ∧
    exec i s' = .next { s' with mem := m, responses := s'.responses ++ [r] }

/-- A command never changes a byte outside its window, and a size command or a command with a bad
window changes none (R30, R40, R42). -/
def Obligations.NoByteOutsideTheWindowChanges : Prop :=
  ∀ (i : Instr) (s t : State) (a : Nat), exec i s = .next t →
    (∀ ptr avail, i.window? = some (ptr, avail) → ptr.toNat + avail.toNat ≤ 2 ^ s.cfg.aw →
      a < ptr.toNat ∨ ptr.toNat + avail.toNat ≤ a) →
    t.mem.read a = s.mem.read a

/-- R30: a command has one result. Its response and the bytes it writes depend only on the fields it
uses and, for a decode command, on the bytes its window selects: not on where the window lies, on
bytes outside it, on earlier commands or on anything else of the state. The new memory is the old
one outside the window, and everywhere for a decode or size command. -/
def Obligations.AnswerDependsOnlyOnTheWindow : Prop :=
  ∀ (i : Instr) (q : Addr) (s s' : State), s'.cfg = s.cfg →
    (∀ ptr avail, i.window? = some (ptr, avail) →
      ptr.toNat + avail.toNat ≤ 2 ^ s.cfg.aw ∧ q.toNat + avail.toNat ≤ 2 ^ s.cfg.aw ∧
      (i.format = .fDec → ∀ k, k < avail.toNat → windowByte s' q k = windowByte s ptr k)) →
    ∃ t t' e r, exec i s = .next t ∧ exec (movedTo q i) s' = .next t' ∧
      Effect s t (baseOf i) e r ∧ Effect s' t' (baseOf (movedTo q i)) e r ∧
      (i.format = .fDec ∨ i.format = .fSize → e = []) ∧
      ∀ ptr avail, i.window? = some (ptr, avail) → e.length ≤ avail.toNat

/-- The encode commands never read memory: what they write and answer is the same over any two
memories (R27). -/
def Obligations.EncodersNeverReadMemory : Prop :=
  ∀ (i : Instr) (s s' : State), s'.cfg = s.cfg →
    i.format = .fEnc ∨ i.format = .fPos ∨ i.format = .fPkt →
    ∃ t t' e r, exec i s = .next t ∧ exec i s' = .next t' ∧
      Effect s t (baseOf i) e r ∧ Effect s' t' (baseOf i) e r

/-- The decode and size commands never write memory (R27). -/
def Obligations.DecodersAndSizesNeverWriteMemory : Prop :=
  ∀ (i : Instr) (s : State), i.format = .fDec ∨ i.format = .fSize →
    ∃ r, exec i s = .next (Answered s r)

/-- R31: the size commands perform no memory access and always return the same response for the
same `cmd.val`. -/
def Obligations.SizeCommandsAreIdempotent : Prop :=
  ∀ (val : Word64) (s s' : State),
    (∃ r, exec (.sizeVarint val) s = .next (Answered s r) ∧
      exec (.sizeVarint val) s' = .next (Answered s' r)) ∧
    (∃ r, exec (.sizeVarlong val) s = .next (Answered s r) ∧
      exec (.sizeVarlong val) s' = .next (Answered s' r))

/-- Every `BufferTooSmall` response of every command has `consumed = avail`, and every response of
a window command has `consumed <= avail` (R154); after `OK` the caller's advanced cursor never
exceeds `2^AW` (R23). -/
def Obligations.ConsumedNeverExceedsAvail : Prop :=
  ∀ (i : Instr) (s t : State) (r : Rsp) (ptr : Addr) (avail : Count),
    i.window? = some (ptr, avail) → exec i s = .next t → t.responses = s.responses ++ [r] →
    (r.status = .bufferTooSmall → r.consumed = avail) ∧ r.consumed.toNat ≤ avail.toNat ∧
    (r.status = .ok → ptr.toNat + r.consumed.toNat ≤ 2 ^ s.cfg.aw)

/-- Result fields of a response that is not `OK` are zero and its payload is empty; so are the
fields that the command does not produce (R64 (c)). -/
def Obligations.UnproducedResultFieldsAreZero : Prop :=
  ∀ (i : Instr) (s t : State) (r : Rsp), exec i s = .next t → t.responses = s.responses ++ [r] →
    (r.status ≠ .ok → r = bare r.status r.consumed.toNat) ∧
    (r.val ≠ 0 → ∃ ptr avail,
      i = .decVarint ptr avail ∨ i = .decVarlong ptr avail ∨ i = .decPkt ptr avail) ∧
    (r.x ≠ 0 ∨ r.y ≠ 0 ∨ r.z ≠ 0 → ∃ ptr avail, i = .decPos ptr avail) ∧
    (r.pay ≠ [] → ∃ ptr avail, i = .decPkt ptr avail)

/-- R152: `StringTooLong` keeps code 3 and is never answered; with it the other codes, and which
commands answer which error (R151). -/
def Obligations.StatusesOfEachCommand : Prop :=
  (Status.code .ok = 0 ∧ Status.code .bufferTooSmall = 1 ∧ Status.code .valueTooLarge = 2 ∧
    Status.code .stringTooLong = 3 ∧ Status.code .badCommand = 7) ∧
  ∀ (i : Instr) (s t : State) (r : Rsp), exec i s = .next t → t.responses = s.responses ++ [r] →
    r.status ≠ .stringTooLong ∧
    (r.status = .bufferTooSmall → i.format ≠ .fSize) ∧
    (r.status = .valueTooLarge → ∃ val pay ptr avail, i = .decVarint ptr avail ∨
      i = .decVarlong ptr avail ∨ i = .encPkt val pay ptr avail ∨ i = .decPkt ptr avail) ∧
    (r.status = .badCommand → ∃ ptr avail, i.window? = some (ptr, avail) ∧
      2 ^ s.cfg.aw < ptr.toNat + avail.toNat)

/-- The work of a command is bounded: at most 5 or 10 bytes for a VarInt or VarLong, 8 for a
Position, `2^31 + 4` for a Packet, none for the others (R190 (a)). -/
def Obligations.StoredBytesAreBounded : Prop :=
  ∀ (i : Instr) (s : State), ∃ t e r, exec i s = .next t ∧ Effect s t (baseOf i) e r ∧
    e.length ≤ match i with
      | .encVarint _ _ _ => 5
      | .encVarlong _ _ _ => 10
      | .encPos _ _ _ _ _ => 8
      | .encPkt _ _ _ _ => 2 ^ 31 + 4
      | .decVarint _ _ => 0
      | .decVarlong _ _ => 0
      | .sizeVarint _ => 0
      | .sizeVarlong _ => 0
      | .decPos _ _ => 0
      | .decPkt _ _ => 0

/-! ## Laws of the wire formats -/

/-- The laws (a) to (e) of R83, at both widths: length, continuation bits, shortest form, negative
values at the maximum width, and the range of the last possible byte. -/
def Obligations.EncodedIntegersAreShortest : Prop :=
  (∀ (v : Word32), (intBytes v).length = intSize v ∧
    (∀ k b, (intBytes v)[k]? = some b → (continues b ↔ k + 1 < intSize v)) ∧
    (1 < intSize v → (intBytes v)[intSize v - 1]? ≠ some 0) ∧
    (intSize v = 1 → intBytes v = [BitVec.ofNat 8 v.toNat]) ∧
    (v.msb = true → intSize v = 5) ∧
    (∀ b, (intBytes v)[4]? = some b → 0x01 ≤ b.toNat ∧ b.toNat ≤ 0x0F)) ∧
  (∀ (v : Word64), (intBytes v).length = intSize v ∧
    (∀ k b, (intBytes v)[k]? = some b → (continues b ↔ k + 1 < intSize v)) ∧
    (1 < intSize v → (intBytes v)[intSize v - 1]? ≠ some 0) ∧
    (intSize v = 1 → intBytes v = [BitVec.ofNat 8 v.toNat]) ∧
    (v.msb = true → intSize v = 10) ∧
    (∀ b, (intBytes v)[9]? = some b → b = 0x01)) ∧
  intSize (BitVec.ofNat 64 (2 ^ 63 - 1)) = 9

/-- The size a size command answers is the count the encoder of the same value answers with `OK`,
at both widths (R83 (a)). -/
def Obligations.SizeAgreesWithEncoder : Prop :=
  ∀ (val : Word64) (ptr : Addr) (avail : Count) (s t u : State) (r q : Rsp),
    (exec (.encVarint val ptr avail) s = .next t ∧ exec (.sizeVarint val) s = .next u ∨
      exec (.encVarlong val ptr avail) s = .next t ∧ exec (.sizeVarlong val) s = .next u) →
    t.responses = s.responses ++ [r] → u.responses = s.responses ++ [q] → r.status = .ok →
    q.consumed = r.consumed

/-- R105: decoding what was encoded gives the value and its size, whatever follows: for the
functions, and for the commands over one window. The converse does not hold. -/
def Obligations.IntegerRoundTrip : Prop :=
  (∀ (v : Word32) (rest : List Byte), decodeInt 32 (intBytes v ++ rest) = .ok v (intSize v)) ∧
  (∀ (v : Word64) (rest : List Byte), decodeInt 64 (intBytes v ++ rest) = .ok v (intSize v)) ∧
  (∀ (val : Word64) (ptr : Addr) (avail avail' : Count) (s t : State) (r : Rsp),
    exec (.encVarint val ptr avail) s = .next t → t.responses = s.responses ++ [r] →
    r.status = .ok → r.consumed.toNat ≤ avail'.toNat →
    ptr.toNat + avail'.toNat ≤ 2 ^ s.cfg.aw →
    exec (.decVarint ptr avail') t = .next (Answered t
      { bare .ok r.consumed.toNat with val := (val.setWidth 32).signExtend 64 })) ∧
  (∀ (val : Word64) (ptr : Addr) (avail avail' : Count) (s t : State) (r : Rsp),
    exec (.encVarlong val ptr avail) s = .next t → t.responses = s.responses ++ [r] →
    r.status = .ok → r.consumed.toNat ≤ avail'.toNat →
    ptr.toNat + avail'.toNat ≤ 2 ^ s.cfg.aw →
    exec (.decVarlong ptr avail') t = .next (Answered t
      { bare .ok r.consumed.toNat with val := val })) ∧
  (∃ (bs : List Byte) (v : Word32), decodeInt 32 bs = .ok v bs.length ∧ intBytes v ≠ bs) ∧
  (∃ (bs : List Byte) (v : Word64), decodeInt 64 bs = .ok v bs.length ∧ intBytes v ≠ bs)

/-- R106: a successful decode depends on the bytes it took and on no others; a sequence that was too
short can be continued to any of the three outcomes. -/
def Obligations.DecodePrefixProperty : Prop :=
  ∀ (w : Nat) (bs : List Byte), w = 32 ∨ w = 64 →
    (∀ (v : BitVec w) (n : Nat), decodeInt w bs = .ok v n → ∀ bs' : List Byte,
      bs'.take n = bs.take n → decodeInt w bs' = .ok v n) ∧
    (decodeInt w bs = .err .bufferTooSmall bs.length →
      (∃ more v n, decodeInt w (bs ++ more) = .ok v n) ∧
      (∃ more c, decodeInt w (bs ++ more) = .err .bufferTooSmall c) ∧
      (∃ more c, decodeInt w (bs ++ more) = .err .valueTooLarge c))

/-- What follows a complete item has no influence: a decode command that answers `OK` answers the
same in any window, of any length and anywhere, that begins with the bytes it counted (R30, R101,
R116, R135, R137 (e)). -/
def Obligations.WhatFollowsAnItemHasNoInfluence : Prop :=
  ∀ (i j : Instr) (ptr q : Addr) (avail avail' : Count) (s s' t : State) (r : Rsp),
    (i = .decVarint ptr avail ∧ j = .decVarint q avail' ∨
      i = .decVarlong ptr avail ∧ j = .decVarlong q avail' ∨
      i = .decPos ptr avail ∧ j = .decPos q avail' ∨
      i = .decPkt ptr avail ∧ j = .decPkt q avail') →
    exec i s = .next t → t.responses = s.responses ++ [r] → r.status = .ok →
    q.toNat + avail'.toNat ≤ 2 ^ s'.cfg.aw → r.consumed.toNat ≤ avail'.toNat →
    (∀ k, k < r.consumed.toNat → windowByte s' q k = windowByte s ptr k) →
    exec j s' = .next (Answered s' r)

/-- A VarInt or VarLong cut short by a full window is never a complete one: decoding the window of
the failed encode answers `BufferTooSmall` (R188). -/
def Obligations.TruncatedIntegerDoesNotDecode : Prop :=
  ∀ (val : Word64) (ptr : Addr) (avail : Count) (s t : State) (r : Rsp),
    t.responses = s.responses ++ [r] → r.status = .bufferTooSmall →
    (exec (.encVarint val ptr avail) s = .next t → exec (.decVarint ptr avail) t =
      .next (Answered t (bare .bufferTooSmall avail.toNat))) ∧
    (exec (.encVarlong val ptr avail) s = .next t → exec (.decVarlong ptr avail) t =
      .next (Answered t (bare .bufferTooSmall avail.toNat)))

/-- R117 (c): a Position written and read back is, field by field, the value of the field's range
congruent to the one given; no field disturbs another. -/
def Obligations.PositionFieldsAliasAlone : Prop :=
  ∀ (x y z : Word32) (ptr : Addr) (avail avail' : Count) (s t : State),
    8 ≤ avail.toNat → 8 ≤ avail'.toNat →
    ptr.toNat + avail.toNat ≤ 2 ^ s.cfg.aw → ptr.toNat + avail'.toNat ≤ 2 ^ s.cfg.aw →
    exec (.encPos x y z ptr avail) s = .next t →
    ∃ r, exec (.decPos ptr avail') t = .next (Answered t r) ∧ r.status = .ok ∧
      (r.x.toInt - x.toInt) % 2 ^ 26 = 0 ∧ -2 ^ 25 ≤ r.x.toInt ∧ r.x.toInt < 2 ^ 25 ∧
      (r.y.toInt - y.toInt) % 2 ^ 12 = 0 ∧ -2 ^ 11 ≤ r.y.toInt ∧ r.y.toInt < 2 ^ 11 ∧
      (r.z.toInt - z.toInt) % 2 ^ 26 = 0 ∧ -2 ^ 25 ≤ r.z.toInt ∧ r.z.toInt < 2 ^ 25

/-- R117 (a): a Position whose fields are in range is read back as it was given. -/
def Obligations.PositionRoundTripInRange : Prop :=
  ∀ (x y z : Word32) (ptr : Addr) (avail avail' : Count) (s t : State),
    8 ≤ avail.toNat → 8 ≤ avail'.toNat →
    ptr.toNat + avail.toNat ≤ 2 ^ s.cfg.aw → ptr.toNat + avail'.toNat ≤ 2 ^ s.cfg.aw →
    -2 ^ 25 ≤ x.toInt → x.toInt < 2 ^ 25 → -2 ^ 11 ≤ y.toInt → y.toInt < 2 ^ 11 →
    -2 ^ 25 ≤ z.toInt → z.toInt < 2 ^ 25 →
    exec (.encPos x y z ptr avail) s = .next t →
    exec (.decPos ptr avail') t = .next (Answered t { bare .ok 8 with x := x, y := y, z := z })

/-- R117 (b): writing the fields decoded from any 8 bytes, anywhere, writes those bytes again. -/
def Obligations.PositionBytesRoundTrip : Prop :=
  ∀ (ptr ptr' : Addr) (avail avail' : Count) (s t u v : State) (r : Rsp),
    8 ≤ avail.toNat → 8 ≤ avail'.toNat →
    ptr.toNat + avail.toNat ≤ 2 ^ s.cfg.aw → ptr'.toNat + avail'.toNat ≤ 2 ^ u.cfg.aw →
    exec (.decPos ptr avail) s = .next t → t.responses = s.responses ++ [r] →
    exec (.encPos r.x r.y r.z ptr' avail') u = .next v →
    ∀ k, k < 8 → windowByte v ptr' k = windowByte s ptr k

/-- R138: a Packet framed with `OK consumed=T` is taken apart again by `DEC_PKT` on the same `ptr`
with any `avail >= T`; with a shorter window the answer is `BufferTooSmall consumed=avail`. -/
def Obligations.PacketRoundTrip : Prop :=
  ∀ (val : Word64) (pay : List Byte) (ptr : Addr) (avail avail' : Count) (s t : State) (r : Rsp),
    exec (.encPkt val pay ptr avail) s = .next t → t.responses = s.responses ++ [r] →
    r.status = .ok → ptr.toNat + avail'.toNat ≤ 2 ^ s.cfg.aw →
    (r.consumed.toNat ≤ avail'.toNat → exec (.decPkt ptr avail') t = .next (Answered t
      { bare .ok r.consumed.toNat with val := (val.setWidth 32).signExtend 64, pay := pay })) ∧
    (avail'.toNat < r.consumed.toNat → exec (.decPkt ptr avail') t =
      .next (Answered t (bare .bufferTooSmall avail'.toNat)))

/-- The frame that `ENC_PKT` writes is what a caller gets by `ENC_VARINT` of the length, then
`ENC_VARINT` of the opcode at the advanced cursor, then copying the payload after it (R138). -/
def Obligations.FrameIsTwoVarintsAndThePayload : Prop :=
  ∀ (val len : Word64) (pay : List Byte) (ptr ptr1 : Addr) (avail a0 a1 : Count)
    (s t u v : State) (r q p : Rsp),
    exec (.encPkt val pay ptr avail) s = .next t → t.responses = s.responses ++ [r] →
    r.status = .ok → IsSize (val.toNat % 2 ^ 32) (len.toNat - pay.length) →
    pay.length ≤ len.toNat →
    exec (.encVarint len ptr a0) s = .next u → u.responses = s.responses ++ [q] →
    q.status = .ok → ptr1.toNat = ptr.toNat + q.consumed.toNat →
    exec (.encVarint val ptr1 a1) u = .next v → v.responses = u.responses ++ [p] →
    p.status = .ok →
    ∀ a, t.mem.read a =
      (v.mem.writeSeq (ptr1.toNat + p.consumed.toNat) pay).read a

/-! ## What reaches the block from outside -/

/-- R183: reset during a command delivers no response; with `e` the bytes the command would have
written (as many as its response would have counted, for an encode command), some first `j` of them
lie in the window, and all other bytes of `Mem` hold their old values. A decode or size command, or
a malformed one, leaves no trace in `Mem`. -/
def Obligations.ResetDuringCommandLeavesAPrefix : Prop :=
  ∀ (s : State) (c : Cmd) (rest : List Event), s.inputs = .resetDuring c :: rest →
    ∃ t, step s = .next t ∧ t.cfg = s.cfg ∧ t.responses = s.responses ∧ t.inputs = rest ∧
      (Malformed s.cfg c → t.mem = s.mem) ∧
      ∀ i, decode c = .ok i → (i.format = .fDec ∨ i.format = .fSize → t.mem = s.mem) ∧
        ∃ u e r j, exec i s = .next u ∧ Effect s u (baseOf i) e r ∧ j ≤ e.length ∧
          (i.format = .fEnc ∨ i.format = .fPos ∨ i.format = .fPkt →
            e.length = r.consumed.toNat) ∧
          (∀ k, k < j → e[k]? = some (t.mem.read (baseOf i + k))) ∧
          ∀ a, a < baseOf i ∨ baseOf i + j ≤ a → t.mem.read a = s.mem.read a

/-- A write by another agent outside the window of the running command takes effect, and its order
with the command cannot be observed: the same response and the same bytes result when the caller
writes after the command (R53). That such a write comes before the command, and that a write
anywhere is outside the window of a record with a reserved code or a bad window, is the model's
inference (log 10) from R66, by which such a record accesses no memory. -/
def Obligations.WriteOutsideTheWindowCommutes : Prop :=
  ∀ (s : State) (c : Cmd) (a : Addr) (b : Byte) (rest : List Event),
    s.inputs = .writeDuring c a b :: rest → Lawful s.cfg (.writeDuring c a b) →
    ∃ t u v, step s = .next t ∧
      step { s with inputs := .command c :: .write a b :: rest } = .next u ∧ step u = .next v ∧
      t.responses = v.responses ∧ t.inputs = v.inputs ∧ t.cfg = v.cfg ∧
      ∀ x, t.mem.read x = v.mem.read x

/-- A write by another agent inside the window of a running command is refused: the treatment that
R185 asks of a model (log 9). -/
def Obligations.WriteInsideTheWindowIsRefused : Prop :=
  ∀ (s : State) (c : Cmd) (a : Addr) (b : Byte) (rest : List Event) (i : Instr) (ptr : Addr)
    (avail : Count), s.inputs = .writeDuring c a b :: rest → decode c = .ok i →
    i.window? = some (ptr, avail) → ptr.toNat + avail.toNat ≤ 2 ^ s.cfg.aw →
    ptr.toNat ≤ a.toNat → a.toNat < ptr.toNat + avail.toNat →
    step s = .refused (.windowRace a)

/-- Between commands the caller writes `Mem` freely: a read then returns the byte written, and every
other byte is as before (R45, R187). -/
def Obligations.CallerWriteIsReadBack : Prop :=
  ∀ (s : State) (a : Addr) (b : Byte) (rest : List Event), s.inputs = .write a b :: rest →
    a.toNat < 2 ^ s.cfg.aw →
    ∃ t, step s = .next t ∧ t = { s with mem := t.mem, inputs := rest } ∧
      t.mem.read a.toNat = b ∧ ∀ x, x ≠ a.toNat → t.mem.read x = s.mem.read x

/-- A write to an address at or above `2^AW`, which does not exist (R27), faults: the model's choice
(log 11). -/
def Obligations.WriteToAbsentAddressFaults : Prop :=
  ∀ (s : State) (a : Addr) (b : Byte) (rest : List Event), s.inputs = .write a b :: rest →
    2 ^ s.cfg.aw ≤ a.toNat → step s = .fault (.noSuchAddress a)

/-- A response once delivered never changes, whatever is written to `Mem` later (R28 (b)), and no
step changes the parameters of the instance (R25). -/
def Obligations.DeliveredResponsesNeverChange : Prop :=
  ∀ s t : State, step s = .next t → s.responses <+: t.responses ∧ t.cfg = s.cfg

/-- While the caller keeps its duties, a run never stops, takes every input, and delivers exactly
one response for each command that reset does not abandon (R20, R150, R187). -/
def Obligations.LawfulRunAnswersEveryCommandOnce : Prop :=
  ∀ s : State, (∀ e ∈ s.inputs, Lawful s.cfg e) →
    ∃ t : State, Host.Core.run core s.inputs.length s = .next t ∧ t.inputs = [] ∧
      t.cfg = s.cfg ∧
      t.responses.length = s.responses.length + s.inputs.countP answered
end

