-- ==== Sys2Proof/Laws/Decode.lean ====
section
/-! SUPPORT. What the decoder can answer, said once (spec/30_encoding.md R61, R62). -/

namespace Sys2Proof

/-- The sixteen codes: ten commands with the fields of their formats, and six reserved codes. -/
theorem decode_cases (c : Cmd) :
    (c.op = 0x0 ∧ decode c = .ok (.encVarint c.val c.ptr c.avail)) ∨
    (c.op = 0x1 ∧ decode c = .ok (.encVarlong c.val c.ptr c.avail)) ∨
    (c.op = 0x2 ∧ decode c = .ok (.decVarint c.ptr c.avail)) ∨
    (c.op = 0x3 ∧ decode c = .ok (.decVarlong c.ptr c.avail)) ∨
    (c.op = 0x4 ∧ decode c = .ok (.sizeVarint c.val)) ∨
    (c.op = 0x5 ∧ decode c = .ok (.sizeVarlong c.val)) ∨
    (c.op = 0x8 ∧ decode c = .ok (.encPos c.x c.y c.z c.ptr c.avail)) ∨
    (c.op = 0xA ∧ decode c = .ok (.decPos c.ptr c.avail)) ∨
    (c.op = 0xC ∧ decode c = .ok (.encPkt c.val c.pay c.ptr c.avail)) ∨
    (c.op = 0xE ∧ decode c = .ok (.decPkt c.ptr c.avail)) ∨
    ((c.op = 0x6 ∨ c.op = 0x7 ∨ c.op = 0x9 ∨ c.op = 0xB ∨ c.op = 0xD ∨ c.op = 0xF) ∧
      decode c = .error (.reservedCode c.op)) := by
  obtain ⟨op, val, x, y, z, ptr, avail, pay⟩ := c
  have codes : ∀ o : BitVec 4, o = 0x0 ∨ o = 0x1 ∨ o = 0x2 ∨ o = 0x3 ∨ o = 0x4 ∨ o = 0x5 ∨
      o = 0x6 ∨ o = 0x7 ∨ o = 0x8 ∨ o = 0x9 ∨ o = 0xA ∨ o = 0xB ∨ o = 0xC ∨ o = 0xD ∨
      o = 0xE ∨ o = 0xF := by decide
  rcases codes op with
    rfl | rfl | rfl | rfl | rfl | rfl | rfl | rfl | rfl | rfl | rfl | rfl | rfl | rfl | rfl | rfl <;>
    simp [decode]

end Sys2Proof
end

