-- ==== Sys2Proof/Laws/Memory.lean ====
section
/-! SUPPORT. What reads and writes of buffer memory do (spec/20_memory.md R41, R45), and that every
memory operation keeps the canonical form. The laws of reading hold for any list of cells. -/

namespace Sys2Proof.Machine

/-! ## Reading after one write -/

theorem lookup_insertCell_same (a : Nat) (b : Byte) (cs : List Host.Cell)
    (h : cs.lookup a = none) : (insertCell a b cs).lookup a = some b := by
  induction cs with
  | nil => simp [insertCell]
  | cons c cs ih =>
    obtain ⟨k, v⟩ := c
    have hk : (a == k) = false := by
      cases hc : a == k
      · rfl
      · simp [List.lookup, hc] at h
    have hcs : cs.lookup a = none := by simpa [List.lookup, hk] using h
    simp only [insertCell]
    split
    · simp
    · simp [List.lookup, hk, ih hcs]

theorem lookup_insertCell_other {a x : Nat} (b : Byte) (cs : List Host.Cell) (h : x ≠ a) :
    (insertCell a b cs).lookup x = cs.lookup x := by
  have hx : (x == a) = false := by simpa using h
  induction cs with
  | nil => simp [insertCell, List.lookup, hx]
  | cons c cs ih =>
    obtain ⟨k, v⟩ := c
    simp only [insertCell]
    split
    · simp [List.lookup, hx]
    · cases hk : x == k <;> simp [List.lookup, hk, ih]

theorem lookup_eraseCell_same (a : Nat) (cs : List Host.Cell) :
    (eraseCell a cs).lookup a = none := by
  rw [List.lookup_eq_none_iff]
  intro c hc
  have hne : c.1 ≠ a := by simpa using (List.mem_filter.1 hc).2
  exact bne_iff_ne.2 (Ne.symm hne)

theorem lookup_eraseCell_other {a x : Nat} (cs : List Host.Cell) (h : x ≠ a) :
    (eraseCell a cs).lookup x = cs.lookup x := by
  induction cs with
  | nil => rfl
  | cons c cs ih =>
    obtain ⟨k, v⟩ := c
    simp only [eraseCell] at ih
    by_cases hk : k = a
    · have hx : (x == k) = false := by simpa [hk] using h
      simp [eraseCell, hk, List.lookup, hk ▸ hx, ih]
    · cases hx : x == k <;> simp [eraseCell, hk, List.lookup, hx, ih]

/-- A read returns the byte last written to the address (R45). -/
@[simp] theorem read_write_same (m : Memory) (a : Nat) (b : Byte) : (m.write a b).read a = b := by
  unfold Memory.write Memory.read
  split
  · next h => simp [lookup_eraseCell_same, h]
  · simp [lookup_insertCell_same a b _ (lookup_eraseCell_same a m.cells)]

/-- A write leaves every other address alone (R45). -/
theorem read_write_other (m : Memory) {a x : Nat} (b : Byte) (h : x ≠ a) :
    (m.write a b).read x = m.read x := by
  unfold Memory.write Memory.read
  split
  · simp [lookup_eraseCell_other _ h]
  · simp [lookup_insertCell_other _ _ h, lookup_eraseCell_other _ h]

/-! ## Sequences -/

@[simp] theorem readSeq_length (m : Memory) (a n : Nat) : (m.readSeq a n).length = n := by
  induction n generalizing a with
  | zero => rfl
  | succ n ih => simp [Memory.readSeq, ih]

theorem readSeq_getElem? (m : Memory) (a : Nat) {n k : Nat} (h : k < n) :
    (m.readSeq a n)[k]? = some (m.read (a + k)) := by
  induction n generalizing a k with
  | zero => omega
  | succ n ih =>
    cases k with
    | zero => simp [Memory.readSeq]
    | succ k =>
      have := ih (a := a + 1) (k := k) (by omega)
      simpa [Memory.readSeq, Nat.add_assoc, Nat.add_comm 1 k] using this

/-- Outside the bytes it names, `writeSeq` changes nothing. -/
theorem read_writeSeq_outside (m : Memory) (a x : Nat) (bs : List Byte)
    (h : x < a ∨ a + bs.length ≤ x) : (m.writeSeq a bs).read x = m.read x := by
  induction bs generalizing m a with
  | nil => rfl
  | cons b bs ih =>
    simp only [List.length_cons] at h
    rw [Memory.writeSeq, ih _ _ (by omega), read_write_other _ _ (by omega)]

/-- Byte `k` of the sequence is read back at `a + k`. -/
theorem read_writeSeq_inside (m : Memory) (a : Nat) (bs : List Byte) {k : Nat}
    (h : k < bs.length) : bs[k]? = some ((m.writeSeq a bs).read (a + k)) := by
  induction bs generalizing m a k with
  | nil => simp at h
  | cons b bs ih =>
    cases k with
    | zero =>
      rw [Memory.writeSeq, read_writeSeq_outside _ _ _ _ (by omega)]
      simp
    | succ k =>
      have := ih (m.write a b) (a + 1) (k := k) (by simpa using h)
      simpa [Memory.writeSeq, Nat.add_assoc, Nat.add_comm 1 k] using this

/-- Reading back the bytes just written gives them. -/
theorem readSeq_writeSeq (m : Memory) (a : Nat) (bs : List Byte) :
    (m.writeSeq a bs).readSeq a bs.length = bs := by
  apply List.ext_getElem?
  intro k
  by_cases h : k < bs.length
  · rw [readSeq_getElem? _ _ h, ← read_writeSeq_inside m a bs h]
  · rw [List.getElem?_eq_none (by simpa using h), List.getElem?_eq_none (by simpa using h)]

/-! ## The canonical form -/

theorem risingCells_iff (cs : List Host.Cell) :
    risingCells cs = true ↔ cs.Pairwise fun c d => c.1 < d.1 := by
  induction cs with
  | nil => simp [risingCells]
  | cons c cs ih =>
    cases cs with
    | nil => simp [risingCells]
    | cons d ds =>
      simp only [risingCells, Bool.and_eq_true, decide_eq_true_eq, ih, List.pairwise_cons]
      refine ⟨fun ⟨h, hd, hp⟩ => ⟨?_, hd, hp⟩, fun ⟨h, hd, hp⟩ => ⟨h d (by simp), hd, hp⟩⟩
      intro e he
      rcases List.mem_cons.1 he with rfl | he
      · exact h
      · exact Nat.lt_trans h (hd e he)

theorem mem_insertCell {a : Nat} {b : Byte} {c : Host.Cell} {cs : List Host.Cell} :
    c ∈ insertCell a b cs ↔ c = (a, b) ∨ c ∈ cs := by
  induction cs with
  | nil => simp [insertCell]
  | cons d ds ih =>
    simp only [insertCell]
    split
    · simp
    · simp only [List.mem_cons, ih]
      tauto

theorem mem_eraseCell {a : Nat} {c : Host.Cell} {cs : List Host.Cell} :
    c ∈ eraseCell a cs ↔ c ∈ cs ∧ c.1 ≠ a := by
  simp [eraseCell]

theorem rising_eraseCell {a : Nat} {cs : List Host.Cell}
    (h : cs.Pairwise fun c d => c.1 < d.1) : (eraseCell a cs).Pairwise fun c d => c.1 < d.1 :=
  List.Pairwise.filter _ h

theorem rising_insertCell {a : Nat} {b : Byte} {cs : List Host.Cell}
    (h : cs.Pairwise fun c d => c.1 < d.1) (ha : ∀ c ∈ cs, c.1 ≠ a) :
    (insertCell a b cs).Pairwise fun c d => c.1 < d.1 := by
  induction cs with
  | nil => simp [insertCell]
  | cons c cs ih =>
    obtain ⟨hc, hp⟩ := List.pairwise_cons.1 h
    simp only [insertCell]
    split
    · next hlt =>
      refine List.pairwise_cons.2 ⟨?_, h⟩
      intro d hd
      rcases List.mem_cons.1 hd with rfl | hd
      · exact hlt
      · exact Nat.lt_trans hlt (hc d hd)
    · next hge =>
      refine List.pairwise_cons.2 ⟨?_, ih hp fun d hd => ha d (by simp [hd])⟩
      intro d hd
      rcases mem_insertCell.1 hd with rfl | hd
      · have := ha c (by simp)
        omega
      · exact hc d hd

/-- A write keeps the canonical form. -/
theorem write_wf (m : Memory) (a : Nat) (b : Byte) (h : m.wf = true) : (m.write a b).wf = true := by
  simp only [Memory.wf, Bool.and_eq_true, risingCells_iff, List.all_eq_true, bne_iff_ne] at h ⊢
  unfold Memory.write
  split
  · exact ⟨rising_eraseCell h.1, fun c hc => h.2 c (mem_eraseCell.1 hc).1⟩
  · next hb =>
    refine ⟨rising_insertCell (rising_eraseCell h.1) fun c hc => (mem_eraseCell.1 hc).2, ?_⟩
    intro c hc
    rcases mem_insertCell.1 hc with rfl | hc
    · exact hb
    · exact h.2 c (mem_eraseCell.1 hc).1

/-- A sequence of writes keeps the canonical form. -/
theorem writeSeq_wf (m : Memory) (a : Nat) (bs : List Byte) (h : m.wf = true) :
    (m.writeSeq a bs).wf = true := by
  induction bs generalizing m a with
  | nil => exact h
  | cons b bs ih => exact ih _ _ (write_wf m a b h)

/-- A write below `2^AW` lists no address that does not exist. -/
theorem write_within (cfg : Config) (m : Memory) (a : Nat) (b : Byte) (h : m.within cfg = true)
    (ha : a < cfg.top) : (m.write a b).within cfg = true := by
  simp only [Memory.within, List.all_eq_true, decide_eq_true_eq] at h ⊢
  unfold Memory.write
  split
  · exact fun c hc => h c (mem_eraseCell.1 hc).1
  · intro c hc
    rcases mem_insertCell.1 hc with rfl | hc
    · exact ha
    · exact h c (mem_eraseCell.1 hc).1

/-- A sequence of writes that ends at or below `2^AW` lists no address that does not exist. -/
theorem writeSeq_within (cfg : Config) (m : Memory) (a : Nat) (bs : List Byte)
    (h : m.within cfg = true) (ha : bs = [] ∨ a + bs.length ≤ cfg.top) :
    (m.writeSeq a bs).within cfg = true := by
  induction bs generalizing m a with
  | nil => exact h
  | cons b bs ih =>
    have ha' : a + (bs.length + 1) ≤ cfg.top := by simpa using ha
    exact ih _ _ (write_within cfg m a b h (by omega)) (Or.inr (by omega))

/-- The memory of the reset state has the canonical form, and lists no absent address. -/
theorem reset_mem_wf : State.reset.mem.wf = true ∧ State.reset.mem.within State.reset.cfg = true :=
  ⟨rfl, rfl⟩

end Sys2Proof.Machine
end

