-- ==== Sys2Proof/Laws/State.lean ====
section
/-! SUPPORT. One lemma per field of State per update, all true by definition, so that no later proof
unfolds a record update. -/

namespace Sys2Proof.Machine

@[simp] theorem setMem_cfg (s : State) (m : Memory) : (s.setMem m).cfg = s.cfg := rfl
@[simp] theorem setMem_mem (s : State) (m : Memory) : (s.setMem m).mem = m := rfl
@[simp] theorem setMem_inputs (s : State) (m : Memory) : (s.setMem m).inputs = s.inputs := rfl
@[simp] theorem setMem_responses (s : State) (m : Memory) :
    (s.setMem m).responses = s.responses := rfl
@[simp] theorem setMem_draws (s : State) (m : Memory) : (s.setMem m).draws = s.draws := rfl

@[simp] theorem deliver_cfg (s : State) (r : Rsp) : (s.deliver r).cfg = s.cfg := rfl
@[simp] theorem deliver_mem (s : State) (r : Rsp) : (s.deliver r).mem = s.mem := rfl
@[simp] theorem deliver_inputs (s : State) (r : Rsp) : (s.deliver r).inputs = s.inputs := rfl
@[simp] theorem deliver_responses (s : State) (r : Rsp) :
    (s.deliver r).responses = s.responses ++ [r] := rfl
@[simp] theorem deliver_draws (s : State) (r : Rsp) : (s.deliver r).draws = s.draws := rfl

@[simp] theorem setInputs_cfg (s : State) (es : List Event) : (s.setInputs es).cfg = s.cfg := rfl
@[simp] theorem setInputs_mem (s : State) (es : List Event) : (s.setInputs es).mem = s.mem := rfl
@[simp] theorem setInputs_inputs (s : State) (es : List Event) : (s.setInputs es).inputs = es := rfl
@[simp] theorem setInputs_responses (s : State) (es : List Event) :
    (s.setInputs es).responses = s.responses := rfl
@[simp] theorem setInputs_draws (s : State) (es : List Event) :
    (s.setInputs es).draws = s.draws := rfl

@[simp] theorem countDraw_cfg (s : State) : s.countDraw.cfg = s.cfg := rfl
@[simp] theorem countDraw_mem (s : State) : s.countDraw.mem = s.mem := rfl
@[simp] theorem countDraw_inputs (s : State) : s.countDraw.inputs = s.inputs := rfl
@[simp] theorem countDraw_responses (s : State) : s.countDraw.responses = s.responses := rfl
@[simp] theorem countDraw_draws (s : State) : s.countDraw.draws = s.draws + 1 := rfl

@[simp] theorem complete_cfg (s : State) (base : Nat) (r : Reply) :
    (s.complete base r).cfg = s.cfg := rfl
@[simp] theorem complete_mem (s : State) (base : Nat) (r : Reply) :
    (s.complete base r).mem = s.mem.writeSeq base r.stores := rfl
@[simp] theorem complete_inputs (s : State) (base : Nat) (r : Reply) :
    (s.complete base r).inputs = s.inputs := rfl
@[simp] theorem complete_responses (s : State) (base : Nat) (r : Reply) :
    (s.complete base r).responses = s.responses ++ [r.rsp] := rfl
@[simp] theorem complete_draws (s : State) (base : Nat) (r : Reply) :
    (s.complete base r).draws = s.draws := rfl

/-- A command that stores nothing only delivers its response. -/
theorem complete_of_no_stores (s : State) (base : Nat) (r : Reply) (h : r.stores = []) :
    s.complete base r = s.deliver r.rsp := by
  simp [State.complete, h, Memory.writeSeq, State.setMem]

end Sys2Proof.Machine
end

