-- ==== Sys2Proof/Laws/Ops.lean ====
section
/-! SUPPORT. What the shared operations can do, said once: the window check, the encoder's store, a
command, an input, a step. Later proofs cite these and unfold nothing. -/

namespace Sys2Proof.Machine

/-! ## The window check and the stored encoding -/

theorem windowValid_iff (cfg : Config) (ptr : Addr) (avail : Count) :
    windowValid cfg ptr avail = true ↔ ptr.toNat + avail.toNat ≤ cfg.top := by
  simp [windowValid]

/-- A good window lets the command's own answer through (R42). -/
theorem guardWindow_valid {cfg : Config} {ptr : Addr} {avail : Count}
    (h : ptr.toNat + avail.toNat ≤ cfg.top) (r : Reply) : guardWindow cfg ptr avail r = r := by
  simp [guardWindow, windowValid, h]

/-- A window past the top of the address space is answered with `BadCommand` (R42, R66). -/
theorem guardWindow_invalid {cfg : Config} {ptr : Addr} {avail : Count}
    (h : cfg.top < ptr.toNat + avail.toNat) (r : Reply) :
    guardWindow cfg ptr avail r = badCommand := by
  simp [guardWindow, windowValid, Nat.not_le.2 h]

/-- With room for the whole encoding, it is stored and counted. -/
theorem storeEncoding_room {avail : Nat} {e : List Byte} (h : e.length ≤ avail) :
    storeEncoding avail e = { stores := e, rsp := okRsp e.length } := by
  simp [storeEncoding, Nat.not_lt.2 h]

/-- Without room, its first `avail` bytes are stored and `avail` is the count (R154, R155). -/
theorem storeEncoding_short {avail : Nat} {e : List Byte} (h : avail < e.length) :
    storeEncoding avail e =
      { stores := e.take avail, rsp := statusRsp .bufferTooSmall avail } := by
  simp [storeEncoding, h]

/-- An encoder never stores more than `avail` bytes (R40). -/
theorem storeEncoding_stores_le (avail : Nat) (e : List Byte) :
    (storeEncoding avail e).stores.length ≤ avail := by
  unfold storeEncoding
  split
  · simp
  · simp; omega

@[simp] theorem fail_stores (st : Status) (c : Nat) : (fail st c).stores = [] := rfl
@[simp] theorem fail_rsp (st : Status) (c : Nat) : (fail st c).rsp = statusRsp st c := rfl
@[simp] theorem answer_stores (r : Rsp) : (answer r).stores = [] := rfl
@[simp] theorem answer_rsp (r : Rsp) : (answer r).rsp = r := rfl
@[simp] theorem badCommand_stores : badCommand.stores = [] := rfl
@[simp] theorem badCommand_rsp : badCommand.rsp = statusRsp .badCommand 0 := rfl

/-! ## One command -/

/-- Everything a command does (R20): it completes with the bytes and the response of `replyOf`, its
bytes going to its window. -/
theorem exec_eq_complete (i : Instr) (s : State) :
    exec i s = .next (s.complete (baseOf i) (replyOf i s)) := by
  cases i <;> rfl

theorem guardWindow_stores (cfg : Config) (ptr : Addr) (avail : Count) (r : Reply)
    (hr : r.stores.length ≤ avail.toNat) :
    (guardWindow cfg ptr avail r).stores = [] ∨
      (ptr.toNat + avail.toNat ≤ cfg.top ∧
        (guardWindow cfg ptr avail r).stores.length ≤ avail.toNat) := by
  unfold guardWindow
  split
  · next h => exact Or.inr ⟨(windowValid_iff _ _ _).1 h, hr⟩
  · exact Or.inl rfl

theorem pktBodyReply_stores (n : Nat) (body : List Byte) : (pktBodyReply n body).stores = [] := by
  unfold pktBodyReply
  split <;> rfl

/-- A command stores nothing, or it has a valid window and stores no more bytes than the window
holds (R40, R54). -/
theorem replyOf_stores (i : Instr) (s : State) :
    (replyOf i s).stores = [] ∨ ∃ ptr avail, i.window? = some (ptr, avail) ∧ baseOf i = ptr.toNat ∧
      ptr.toNat + avail.toNat ≤ s.cfg.top ∧ (replyOf i s).stores.length ≤ avail.toNat := by
  have lift : ∀ (ptr : Addr) (avail : Count) (r : Reply), i.window? = some (ptr, avail) →
      baseOf i = ptr.toNat → replyOf i s = guardWindow s.cfg ptr avail r →
      r.stores.length ≤ avail.toNat →
      ((replyOf i s).stores = [] ∨ ∃ ptr avail, i.window? = some (ptr, avail) ∧
        baseOf i = ptr.toNat ∧ ptr.toNat + avail.toNat ≤ s.cfg.top ∧
        (replyOf i s).stores.length ≤ avail.toNat) := by
    intro ptr avail r hw hb he hr
    rw [he]
    rcases guardWindow_stores s.cfg ptr avail r hr with h | ⟨h1, h2⟩
    · exact Or.inl h
    · exact Or.inr ⟨ptr, avail, hw, hb, h1, h2⟩
  cases i with
  | encVarint val ptr avail => exact lift ptr avail _ rfl rfl rfl (storeEncoding_stores_le _ _)
  | encVarlong val ptr avail => exact lift ptr avail _ rfl rfl rfl (storeEncoding_stores_le _ _)
  | decVarint ptr avail =>
    refine lift ptr avail _ rfl rfl rfl ?_
    split <;> simp
  | decVarlong ptr avail =>
    refine lift ptr avail _ rfl rfl rfl ?_
    split <;> simp
  | sizeVarint val => exact Or.inl rfl
  | sizeVarlong val => exact Or.inl rfl
  | encPos x y z ptr avail => exact lift ptr avail _ rfl rfl rfl (storeEncoding_stores_le _ _)
  | decPos ptr avail =>
    refine lift ptr avail _ rfl rfl rfl ?_
    split <;> simp
  | encPkt val pay ptr avail =>
    refine lift ptr avail _ rfl rfl rfl ?_
    split
    · simp
    · exact storeEncoding_stores_le _ _
  | decPkt ptr avail =>
    refine lift ptr avail _ rfl rfl rfl ?_
    split
    · simp
    · split
      · simp
      · split
        · simp
        · simp [pktBodyReply_stores]

/-- So the bytes that a command stores all have addresses that exist. -/
theorem replyOf_stores_within (i : Instr) (s : State) :
    (replyOf i s).stores = [] ∨ baseOf i + (replyOf i s).stores.length ≤ s.cfg.top := by
  rcases replyOf_stores i s with h | ⟨ptr, avail, -, hb, ht, hl⟩
  · exact Or.inl h
  · exact Or.inr (by omega)

/-! ## One input, one step -/

/-- A presented record always completes: as its command, or as `BadCommand` (R66, R150). -/
theorem present_cases (c : Cmd) (s : State) :
    (∃ i, decode c = .ok i ∧ present c s = .next (s.complete (baseOf i) (replyOf i s))) ∨
      (∃ op, decode c = .error (.reservedCode op) ∧
        present c s = .next (s.deliver (statusRsp .badCommand 0))) := by
  unfold present
  cases h : decode c with
  | ok i => exact Or.inl ⟨i, rfl, by simp [exec_eq_complete]⟩
  | error e =>
    obtain ⟨op⟩ := e
    exact Or.inr ⟨op, rfl, congrArg Host.Outcome.next (complete_of_no_stores s 0 badCommand rfl)⟩

/-- A write from outside: the byte is stored, or the address does not exist (R27). -/
theorem outsideWrite_cases (a : Addr) (b : Byte) (s : State) :
    (a.toNat < s.cfg.top ∧ outsideWrite a b s = .next (s.setMem (s.mem.write a.toNat b))) ∨
      (s.cfg.top ≤ a.toNat ∧ outsideWrite a b s = .fault (.noSuchAddress a)) := by
  unfold outsideWrite
  split
  · next h => exact Or.inl ⟨h, rfl⟩
  · next h => exact Or.inr ⟨by omega, rfl⟩

/-- Reset during a command (R183): some first bytes of what it would have stored are stored, and
there is no response. -/
theorem resetDuring_cases (c : Cmd) (s : State) :
    (∃ i j, decode c = .ok i ∧ j ≤ (replyOf i s).stores.length ∧
      resetDuring c s = .next
        (s.setMem (s.mem.writeSeq (baseOf i) ((replyOf i s).stores.take j))).countDraw) ∨
      (∃ op, decode c = .error (.reservedCode op) ∧ resetDuring c s = .next s.countDraw) := by
  unfold resetDuring
  cases h : decode c with
  | ok i =>
    refine Or.inl ⟨i, abandonedCount s.draws (replyOf i s).stores.length, rfl, ?_, rfl⟩
    exact Nat.lt_succ_iff.1 (Nat.mod_lt _ (Nat.succ_pos _))
  | error e =>
    obtain ⟨op⟩ := e
    exact Or.inr ⟨op, rfl, rfl⟩

/-- Another agent's write during a command: refused inside the window, otherwise a write and then
the command (R53, R185). -/
theorem presentDuringWrite_cases (c : Cmd) (a : Addr) (b : Byte) (s : State) :
    (racesWith s.cfg c a.toNat = true ∧
      presentDuringWrite c a b s = .refused (.windowRace a)) ∨
    (racesWith s.cfg c a.toNat = false ∧ s.cfg.top ≤ a.toNat ∧
      presentDuringWrite c a b s = .fault (.noSuchAddress a)) ∨
    (racesWith s.cfg c a.toNat = false ∧ a.toNat < s.cfg.top ∧
      presentDuringWrite c a b s = present c (s.setMem (s.mem.write a.toNat b))) := by
  unfold presentDuringWrite
  cases hr : racesWith s.cfg c a.toNat with
  | true => exact Or.inl ⟨rfl, by simp⟩
  | false =>
    rcases outsideWrite_cases a b s with ⟨h, e⟩ | ⟨h, e⟩
    · exact Or.inr (Or.inr ⟨rfl, h, by simp [e]⟩)
    · exact Or.inr (Or.inl ⟨rfl, h, by simp [e]⟩)

/-- With no input a step changes nothing (R166). -/
theorem step_idle {s : State} (h : s.inputs = []) : step s = .next s := by
  simp [step, h]

/-- With an input a step takes it off and performs it (R187). -/
theorem step_input {s : State} {e : Event} {rest : List Event} (h : s.inputs = e :: rest) :
    step s = perform e (s.setInputs rest) := by
  simp [step, h]

end Sys2Proof.Machine
end

