-- ==== Sys2Proof/Laws/Position.lean ====
section
/-! SUPPORT. The Position word as arithmetic: packing, unpacking and the order of its bytes
(spec/42_bit_field_packer.md R112 to R118). -/

namespace Sys2Proof.Machine

open Sys2Proof.Safety

@[simp] theorem posBytes_length (v : Word64) : (posBytes v).length = 8 := by
  simp [posBytes, posSize]

/-- The three slots do not overlap, so the OR is a concatenation (R114). -/
theorem posWord_eq_append (x y z : Word32) :
    posWord x y z = (x.setWidth 26 ++ y.setWidth 12 ++ z.setWidth 26 : BitVec 64) := by
  apply BitVec.eq_of_getLsbD_eq
  intro i hi
  simp only [posWord, fieldInsert, xzWidth, yWidth, xOffset, yOffset, zOffset, BitVec.getLsbD_or,
    BitVec.getLsbD_shiftLeft, BitVec.getLsbD_append, BitVec.getLsbD_setWidth]
  by_cases h1 : i < 26
  · simp [h1, hi, show i < 38 by omega]
  · by_cases h2 : i < 38
    · simp [h1, h2, hi, show i - 26 < 12 by omega]
      omega
    · simp [h1, h2, hi, show ¬ i - 26 < 12 by omega, show i - 38 < 26 by omega,
        show i - 26 - 12 = i - 38 by omega]
      omega

theorem posWord_toNat (x y z : Word32) : (posWord x y z).toNat = positionWord x y z := by
  have h1 : y.toNat % 2 ^ 12 < 2 ^ 12 := Nat.mod_lt _ (by decide)
  have h2 : z.toNat % 2 ^ 26 < 2 ^ 26 := Nat.mod_lt _ (by decide)
  rw [posWord_eq_append, BitVec.toNat_append, BitVec.toNat_append]
  simp only [BitVec.toNat_setWidth]
  rw [Nat.shiftLeft_eq, Nat.shiftLeft_eq, Nat.mul_comm _ (2 ^ 12),
    ← Nat.two_pow_add_eq_or_of_lt h1, Nat.mul_comm _ (2 ^ 26), ← Nat.two_pow_add_eq_or_of_lt h2]
  unfold positionWord
  ring

theorem isBigEndian_posBytes (v : Word64) : IsBigEndian v.toNat (posBytes v) := by
  refine ⟨posBytes_length v, fun k hk => ?_⟩
  have h : (posBytes v)[k]? = some (v.extractLsb' (8 * (7 - k)) 8) := by
    simp [posBytes, posSize, hk]
  rw [h]
  congr 1
  apply BitVec.eq_of_toNat_eq
  simp [Nat.shiftRight_eq_div_pow]

theorem shiftIn_toNat (acc : Word64) (b : Byte) (h : acc.toNat < 2 ^ 56) :
    ((acc <<< 8) ||| b.setWidth 64).toNat = acc.toNat * 256 + b.toNat := by
  have h8 := b.isLt
  rw [BitVec.toNat_or, BitVec.toNat_shiftLeft, BitVec.toNat_setWidth, Nat.shiftLeft_eq,
    Nat.mod_eq_of_lt (by omega), Nat.mod_eq_of_lt (by omega), Nat.mul_comm _ (2 ^ 8),
    ← Nat.two_pow_add_eq_or_of_lt h8]

theorem posWordOf_toNat (a b c d e f g h : Byte) :
    (posWordOf [a, b, c, d, e, f, g, h]).toNat =
      a.toNat * 2 ^ 56 + b.toNat * 2 ^ 48 + c.toNat * 2 ^ 40 + d.toNat * 2 ^ 32 +
        e.toNat * 2 ^ 24 + f.toNat * 2 ^ 16 + g.toNat * 2 ^ 8 + h.toNat := by
  have := a.isLt; have := b.isLt; have := c.isLt; have := d.isLt
  have := e.isLt; have := f.isLt; have := g.isLt; have := h.isLt
  have h0 : (0 : Word64).toNat = 0 := rfl
  have h1 := shiftIn_toNat 0 a (by decide)
  have h2 := shiftIn_toNat _ b (by rw [h1]; omega)
  have h3 := shiftIn_toNat _ c (by rw [h2, h1]; omega)
  have h4 := shiftIn_toNat _ d (by rw [h3, h2, h1]; omega)
  have h5 := shiftIn_toNat _ e (by rw [h4, h3, h2, h1]; omega)
  have h6 := shiftIn_toNat _ f (by rw [h5, h4, h3, h2, h1]; omega)
  have h7 := shiftIn_toNat _ g (by rw [h6, h5, h4, h3, h2, h1]; omega)
  have h8 := shiftIn_toNat _ h (by rw [h7, h6, h5, h4, h3, h2, h1]; omega)
  unfold posWordOf
  simp only [List.foldl]
  rw [h8, h7, h6, h5, h4, h3, h2, h1]
  omega

/-- The 8 bytes of a window as a word (R116, R118). -/
theorem posWordOf_window (s : State) (ptr : Addr) :
    (posWordOf (windowSeq s.mem ptr 0 posSize)).toNat = bigEndian (windowByte s ptr) := by
  have h : windowSeq s.mem ptr 0 posSize =
      [windowByte s ptr 0, windowByte s ptr 1, windowByte s ptr 2, windowByte s ptr 3,
        windowByte s ptr 4, windowByte s ptr 5, windowByte s ptr 6, windowByte s ptr 7] := by
    simp [windowSeq, posSize, Memory.readSeq, windowByte]
  rw [h, posWordOf_toNat]
  rfl

/-- `FieldExtract` is the field's bits, sign-extended (R113). -/
theorem fieldExtract_eq {v : Word64} {w o : Nat} (hw : 1 ≤ w) (h : w + o ≤ 64) :
    fieldExtract v w o = (v.extractLsb' o w).signExtend 64 := by
  apply BitVec.eq_of_getLsbD_eq
  intro i hi
  unfold fieldExtract
  rw [BitVec.getLsbD_sshiftRight, BitVec.getLsbD_signExtend]
  simp only [BitVec.getLsbD_shiftLeft, BitVec.getLsbD_extractLsb', BitVec.msb_eq_getLsbD_last]
  by_cases h1 : i < w
  · simp [h1, hi, show ¬ 64 ≤ i by omega, show 64 - w + i < 64 by omega,
      show ¬ (64 - w + i < 64 - (w + o)) by omega]
    congr 1
    omega
  · simp [h1, hi, show ¬ 64 ≤ i by omega, show ¬ (64 - w + i < 64) by omega,
      show 63 - (64 - (w + o)) = o + (w - 1) by omega, show ¬ 63 < 64 - (w + o) by omega,
      show 0 < w by omega]

theorem fieldExtract_toInt {v : Word64} {w o : Nat} (hw : 1 ≤ w) (h : w + o ≤ 64) :
    (fieldExtract v w o).toInt = fieldOf v.toNat w o := by
  rw [fieldExtract_eq hw h, BitVec.toInt_signExtend_of_le (by omega), BitVec.toInt_eq_toNat_cond]
  simp only [BitVec.extractLsb'_toNat, Nat.shiftRight_eq_div_pow, fieldOf]
  have e : 2 ^ w = 2 * 2 ^ (w - 1) := by rw [← Nat.pow_succ']; congr 1; omega
  by_cases hc : v.toNat / 2 ^ o % 2 ^ w < 2 ^ (w - 1)
  · rw [if_pos (by omega), if_pos hc]
  · rw [if_neg (by omega), if_neg hc]
    push_cast
    rfl

/-- The response of a Position decode (R116). -/
theorem posRsp_eq (v : Word64) : posRsp v = { bare .ok 8 with
    x := BitVec.ofInt 32 (fieldOf v.toNat 26 38)
    y := BitVec.ofInt 32 (fieldOf v.toNat 12 26)
    z := BitVec.ofInt 32 (fieldOf v.toNat 26 0) } := by
  have key : ∀ w o, 1 ≤ w → w + o ≤ 64 →
      (fieldExtract v w o).setWidth 32 = BitVec.ofInt 32 (fieldOf v.toNat w o) := by
    intro w o hw h
    rw [← fieldExtract_toInt hw h]
    apply BitVec.eq_of_toInt_eq
    simp [BitVec.toInt_setWidth, BitVec.toInt_ofInt]
    rw [BitVec.toInt_eq_toNat_bmod]
    exact (Int.bmod_bmod_of_dvd (by decide)).symm
  rw [← key 26 38 (by omega) (by omega), ← key 12 26 (by omega) (by omega),
    ← key 26 0 (by omega) (by omega)]
  rfl

end Sys2Proof.Machine
end

