-- ==== Sys2Proof/Laws/Varint.lean ====
section
/-! SUPPORT. The size of an encoded integer, the length of its encoding, and the decoder's loop
(spec/40_varint_encoder.md R81 to R83, spec/41_varint_decoder.md R101). -/

namespace Sys2Proof.Machine

@[simp] theorem maxBytes_32 : maxBytes 32 = 5 := rfl
@[simp] theorem maxBytes_64 : maxBytes 64 = 10 := rfl

/-- `bit_length(u)` is the least `k >= 1` with `u < 2^k` (R8). -/
theorem bitLength_le_iff {u k : Nat} (hk : 1 ≤ k) : bitLength u ≤ k ↔ u < 2 ^ k := by
  unfold bitLength
  split
  · next h => simp [h, hk]
  · next h => rw [← Nat.log2_lt h]; omega

theorem bitLength_pos (u : Nat) : 1 ≤ bitLength u := by
  unfold bitLength
  split <;> omega

theorem intSize_pos {w : Nat} (v : BitVec w) : 1 ≤ intSize v :=
  Nat.le_add_right 1 _

/-- `Size_W(v)` is the least `S >= 1` with `u < 2^(7*S)` (R81). -/
theorem intSize_le_iff {w S : Nat} (v : BitVec w) (hS : 1 ≤ S) :
    intSize v ≤ S ↔ v.toNat < 2 ^ (7 * S) := by
  rw [← bitLength_le_iff (by omega : 1 ≤ 7 * S)]
  have := bitLength_pos v.toNat
  unfold intSize groupBits
  omega

/-- A `w`-bit integer takes at most `MAXB(w)` bytes (R81). -/
theorem intSize_le_maxBytes {w : Nat} (hw : 1 ≤ w) (v : BitVec w) : intSize v ≤ maxBytes w := by
  have h1 : 1 ≤ maxBytes w := by unfold maxBytes groupBits; omega
  have h2 : w ≤ 7 * maxBytes w := by unfold maxBytes groupBits; omega
  exact (intSize_le_iff v h1).2 (lt_of_lt_of_le v.isLt (Nat.pow_le_pow_right (by omega) h2))

/-- The length of the encoding is the size (R83 (a)). -/
@[simp] theorem intBytes_length {w : Nat} (v : BitVec w) : (intBytes v).length = intSize v := by
  simp [intBytes]

theorem intBytes_getElem? {w : Nat} (v : BitVec w) {k : Nat} (h : k < intSize v) :
    (intBytes v)[k]? = some (intByte v.toNat (intSize v) k) := by
  simp [intBytes, h]

/-! ## The decoder's loop -/

/-- The loop looks at no byte after the `left` bytes it may still take. -/
theorem decodeIntFrom_take (w left i : Nat) (acc : BitVec w) (s : List Byte) :
    decodeIntFrom w left i acc (s.take left) = decodeIntFrom w left i acc s := by
  induction left generalizing i acc s with
  | zero => simp [decodeIntFrom]
  | succ n ih =>
    cases s with
    | nil => simp [decodeIntFrom]
    | cons b bs =>
      simp only [List.take_succ_cons, decodeIntFrom]
      split
      · exact ih _ _ _
      · rfl

/-- Reading on demand is enough (R103): the first `MAXB(w)` bytes decide. -/
theorem decodeInt_take (w : Nat) (s : List Byte) :
    decodeInt w (s.take (maxBytes w)) = decodeInt w s :=
  decodeIntFrom_take w (maxBytes w) 0 0 s

end Sys2Proof.Machine
end

