-- ==== Sys2Proof/Laws/Wire.lean ====
section
/-! SUPPORT. What the codec functions do, said once in the terms of Sys2Proof/Safety.lean: the size
and bytes of an encoded integer (spec/40_varint_encoder.md R81, R82), the decoder's loop
(spec/41_varint_decoder.md R101), the Position word (spec/42_bit_field_packer.md), and the effect of
a completed command. -/

namespace Sys2Proof.Machine

open Sys2Proof.Safety

/-! ## Completed commands -/

/-- Completing a command has the effect its reply describes, and no other (R20, R30). -/
theorem complete_effect (s : State) (base : Nat) (r : Reply) :
    Effect s (s.complete base r) base r.stores r.rsp :=
  ⟨rfl, fun _ hk => read_writeSeq_inside s.mem base r.stores hk,
    fun a ha => read_writeSeq_outside s.mem base a r.stores ha⟩

/-- The effect of a whole command. -/
theorem exec_effect (i : Instr) (s : State) :
    ∃ t, exec i s = .next t ∧
      Effect s t (baseOf i) (replyOf i s).stores (replyOf i s).rsp :=
  ⟨_, exec_eq_complete i s, complete_effect _ _ _⟩

/-- The response of a command is that of its reply. -/
theorem exec_response {i : Instr} {s t : State} {r : Rsp} (h : exec i s = .next t)
    (hr : t.responses = s.responses ++ [r]) : r = (replyOf i s).rsp := by
  rw [exec_eq_complete] at h
  obtain rfl := Host.Outcome.next.inj h
  simpa using hr.symm

/-- A reply that stores nothing leaves the state but for its response. -/
theorem exec_answered {i : Instr} {s : State} {r : Rsp} (h : replyOf i s = answer r) :
    exec i s = .next (Answered s r) := by
  rw [exec_eq_complete, h, complete_of_no_stores _ _ _ rfl]
  rfl

/-! ## Encoded integers -/

theorem isSize_intSize {w : Nat} (v : BitVec w) : IsSize v.toNat (intSize v) :=
  ⟨intSize_pos v, (intSize_le_iff v (intSize_pos v)).1 le_rfl,
    fun _ h1 h2 => (intSize_le_iff v h1).2 h2⟩

/-- The size of a number is unique. -/
theorem isSize_unique {u a b : Nat} (ha : IsSize u a) (hb : IsSize u b) : a = b :=
  le_antisymm (ha.2.2 b hb.1 hb.2.1) (hb.2.2 a ha.1 ha.2.1)

theorem intByte_toNat (u size k : Nat) :
    (intByte u size k).toNat = u / 2 ^ (7 * k) % 128 + if k + 1 < size then 128 else 0 := by
  have h : u / 2 ^ (7 * k) % 2 ^ 7 < 2 ^ 7 := Nat.mod_lt _ (by decide)
  have hb : (BitVec.ofBool (decide (k + 1 < size))).toNat = if k + 1 < size then 1 else 0 := by
    split <;> simp [*]
  unfold intByte intGroup groupBits
  rw [BitVec.toNat_append, hb, BitVec.toNat_ofNat, Nat.shiftRight_eq_div_pow, Nat.shiftLeft_eq,
    Nat.mul_comm, ← Nat.two_pow_add_eq_or_of_lt h]
  split <;> omega

theorem isEncoding_intBytes {w : Nat} (v : BitVec w) :
    IsEncoding v.toNat (intSize v) (intBytes v) := by
  refine ⟨intBytes_length v, fun k hk => ?_⟩
  rw [intBytes_getElem? v hk, ← intByte_toNat, BitVec.ofNat_toNat, BitVec.setWidth_eq]

/-- The encoding of a number is unique. -/
theorem isEncoding_unique {u n : Nat} {a b : List Byte} (ha : IsEncoding u n a)
    (hb : IsEncoding u n b) : a = b := by
  apply List.ext_getElem?
  intro k
  by_cases hk : k < n
  · rw [ha.2 k hk, hb.2 k hk]
  · rw [List.getElem?_eq_none (by rw [ha.1]; omega), List.getElem?_eq_none (by rw [hb.1]; omega)]

/-! ## The decoder -/

theorem continues_iff (b : Byte) : continues b ↔ b.getLsbD 7 = true := by
  revert b
  unfold continues
  decide

theorem spelled_lt (f : Nat → Byte) (n : Nat) : spelled f n < 2 ^ (7 * n) := by
  induction n with
  | zero => simp [spelled]
  | succ n ih =>
    have h : (f n).toNat % 128 ≤ 127 := by omega
    have h2 : (f n).toNat % 128 * 2 ^ (7 * n) ≤ 127 * 2 ^ (7 * n) := Nat.mul_le_mul_right _ h
    have h3 : 2 ^ (7 * (n + 1)) = 128 * 2 ^ (7 * n) := by rw [Nat.mul_succ, Nat.pow_add]; ring
    simp only [spelled]
    omega

theorem intContribution_eq (w i : Nat) (b : Byte) :
    intContribution w i b = BitVec.ofNat w (b.toNat % 128 * 2 ^ (7 * i)) := by
  apply BitVec.eq_of_toNat_eq
  unfold intContribution groupBits
  simp [Nat.shiftLeft_eq]

/-- One turn of the loop adds one group to the number spelled so far. -/
theorem acc_step (w : Nat) (f : Nat → Byte) (i : Nat) :
    BitVec.ofNat w (spelled f i) ||| intContribution w i (f i) =
      BitVec.ofNat w (spelled f (i + 1)) := by
  rw [intContribution_eq, ← BitVec.ofNat_or, Nat.or_comm, Nat.mul_comm,
    ← Nat.two_pow_add_eq_or_of_lt (spelled_lt f i)]
  congr 1
  simp only [spelled]
  ring

/-- The loop stops with the value at the first byte without a continuation bit (R101). -/
theorem decodeIntFrom_ok (w : Nat) (f : Nat → Byte) (left i n : Nat) (bs : List Byte)
    (hbs : ∀ k, k < bs.length → bs[k]? = some (f (i + k))) (hin : i < n) (hl : n ≤ i + left)
    (hlen : n ≤ i + bs.length) (hc : ∀ k, i ≤ k → k < n - 1 → continues (f k))
    (hn : ¬ continues (f (n - 1))) :
    decodeIntFrom w left i (BitVec.ofNat w (spelled f i)) bs =
      .ok (BitVec.ofNat w (spelled f n)) n := by
  induction left generalizing i bs with
  | zero => omega
  | succ left ih =>
    cases bs with
    | nil => simp at hlen; omega
    | cons b bs =>
      have hb : b = f i := by simpa using hbs 0 (by simp)
      subst hb
      simp only [decodeIntFrom, acc_step]
      by_cases h : n = i + 1
      · subst h
        have : (f i).getLsbD 7 = false := by
          rw [← Bool.not_eq_true, ← continues_iff]
          simpa using hn
        rw [this, if_neg Bool.false_ne_true]
      · have : (f i).getLsbD 7 = true := (continues_iff _).1 (hc i le_rfl (by omega))
        rw [if_pos this]
        refine ih (i + 1) bs ?_ (by omega) (by omega) (by simp at hlen; omega)
          fun k h1 h2 => hc k (by omega) h2
        intro k hk
        have := hbs (k + 1) (by simpa using hk)
        simpa [Nat.add_assoc, Nat.add_comm 1 k] using this

/-- The loop runs out of bytes (R101). -/
theorem decodeIntFrom_short (w : Nat) (left i : Nat) (acc : BitVec w) (bs : List Byte)
    (h : bs.length < left) (hc : ∀ b ∈ bs, continues b) :
    decodeIntFrom w left i acc bs = .err .bufferTooSmall (i + bs.length) := by
  induction left generalizing i acc bs with
  | zero => omega
  | succ left ih =>
    cases bs with
    | nil => simp [decodeIntFrom]
    | cons b bs =>
      have hb : b.getLsbD 7 = true := (continues_iff _).1 (hc b (by simp))
      simp only [decodeIntFrom, hb, if_true]
      rw [ih _ _ _ (by simpa using h) fun c hc' => hc c (by simp [hc'])]
      simp only [List.length_cons]
      congr 1
      omega

/-- The loop takes the greatest number of bytes without an end (R101). -/
theorem decodeIntFrom_long (w : Nat) (left i : Nat) (acc : BitVec w) (bs : List Byte)
    (h : left ≤ bs.length) (hc : ∀ b ∈ bs.take left, continues b) :
    decodeIntFrom w left i acc bs = .err .valueTooLarge (maxBytes w) := by
  induction left generalizing i acc bs with
  | zero => simp [decodeIntFrom]
  | succ left ih =>
    cases bs with
    | nil => simp at h
    | cons b bs =>
      have hb : b.getLsbD 7 = true := (continues_iff _).1 (hc b (by simp))
      simp only [decodeIntFrom, hb, if_true]
      exact ih _ _ _ (by simpa using h) fun c hc' => hc c (by simp [hc'])

theorem decodeInt_ok (w : Nat) {f : Nat → Byte} {n : Nat} {bs : List Byte}
    (hbs : ∀ k, k < bs.length → bs[k]? = some (f k)) (ht : Terminates f n) (hm : n ≤ maxBytes w)
    (hlen : n ≤ bs.length) : decodeInt w bs = .ok (BitVec.ofNat w (spelled f n)) n :=
  decodeIntFrom_ok w f (maxBytes w) 0 n bs (by simpa using hbs) ht.1 (by omega) (by omega)
    (fun k _ h => ht.2.1 k h) ht.2.2

theorem decodeInt_short (w : Nat) {bs : List Byte} (h : bs.length < maxBytes w)
    (hc : ∀ b ∈ bs, continues b) : decodeInt w bs = .err .bufferTooSmall bs.length := by
  rw [decodeInt, decodeIntFrom_short w (maxBytes w) 0 0 bs h hc, Nat.zero_add]

theorem decodeInt_long (w : Nat) {bs : List Byte} (h : maxBytes w ≤ bs.length)
    (hc : ∀ b ∈ bs.take (maxBytes w), continues b) :
    decodeInt w bs = .err .valueTooLarge (maxBytes w) :=
  decodeIntFrom_long w (maxBytes w) 0 0 bs h hc

/-- A sequence of bytes spells an integer, is too short, or has too many continuation bits: one of
the three, for every sequence (R101, R158). -/
theorem terminates_or (f : Nat → Byte) (len : Nat) :
    (∃ n, Terminates f n ∧ n ≤ len) ∨ ∀ k, k < len → continues (f k) := by
  induction len with
  | zero => exact Or.inr fun k hk => absurd hk (by omega)
  | succ len ih =>
    rcases ih with ⟨n, h1, h2⟩ | h
    · exact Or.inl ⟨n, h1, by omega⟩
    · by_cases hc : continues (f len)
      · refine Or.inr fun k hk => ?_
        rcases Nat.lt_succ_iff_lt_or_eq.1 hk with h' | rfl
        · exact h k h'
        · exact hc
      · exact Or.inl ⟨len + 1, ⟨by omega, fun i hi => h i (by omega), by simpa using hc⟩, le_rfl⟩

/-- The bytes of an encoding end where its size says. -/
theorem terminates_of_isEncoding {u n : Nat} {e : List Byte} {f : Nat → Byte} (hn : 1 ≤ n)
    (he : IsEncoding u n e) (hf : ∀ k, k < n → e[k]? = some (f k)) : Terminates f n := by
  have key : ∀ k, k < n → (f k).toNat = u / 2 ^ (7 * k) % 128 + if k + 1 < n then 128 else 0 := by
    intro k hk
    have h := hf k hk
    rw [he.2 k hk] at h
    rw [← Option.some.inj h, BitVec.toNat_ofNat]
    have : u / 2 ^ (7 * k) % 128 < 128 := Nat.mod_lt _ (by decide)
    split <;> omega
  refine ⟨hn, fun i hi => ?_, ?_⟩
  · have := key i (by omega)
    rw [if_pos (by omega)] at this
    unfold continues
    omega
  · have := key (n - 1) (by omega)
    rw [if_neg (by omega)] at this
    have h2 : u / 2 ^ (7 * (n - 1)) % 128 < 128 := Nat.mod_lt _ (by decide)
    unfold continues
    omega

/-- And they spell the number that was encoded. -/
theorem spelled_of_isEncoding {u n m : Nat} {e : List Byte} {f : Nat → Byte}
    (he : IsEncoding u n e) (hf : ∀ k, k < n → e[k]? = some (f k)) (hm : m ≤ n) :
    spelled f m = u % 2 ^ (7 * m) := by
  induction m with
  | zero => simp [spelled, Nat.mod_one]
  | succ m ih =>
    have h := hf m (by omega)
    rw [he.2 m (by omega)] at h
    have hb : (f m).toNat % 128 = u / 2 ^ (7 * m) % 128 := by
      rw [← Option.some.inj h, BitVec.toNat_ofNat]
      split <;> omega
    rw [spelled, ih (by omega), hb, Nat.mul_succ, Nat.pow_add, Nat.mod_mul]
    norm_num
    ring

/-! ## The decoder over a window -/

theorem operand32_toNat (v : Word64) : (operand32 v).toNat = v.toNat % 2 ^ 32 := by
  simp [operand32]

@[simp] theorem windowSeq_length (m : Memory) (ptr : Addr) (i n : Nat) :
    (windowSeq m ptr i n).length = n := by
  simp [windowSeq]

theorem windowSeq_getElem? (m : Memory) (ptr : Addr) (i n : Nat) :
    ∀ k, k < (windowSeq m ptr i n).length →
      (windowSeq m ptr i n)[k]? = some (m.read (ptr.toNat + (i + k))) := by
  intro k hk
  rw [windowSeq_length] at hk
  rw [windowSeq, readSeq_getElem? _ _ hk, Nat.add_assoc]

@[simp] theorem windowInt_length (w : Nat) (m : Memory) (ptr : Addr) (avail : Count) :
    (windowInt w m ptr avail).length = min avail.toNat (maxBytes w) := by
  simp [windowInt]

theorem windowInt_getElem? (w : Nat) (m : Memory) (ptr : Addr) (avail : Count) :
    ∀ k, k < (windowInt w m ptr avail).length →
      (windowInt w m ptr avail)[k]? = some (m.read (ptr.toNat + k)) := by
  intro k hk
  have h := windowSeq_getElem? m ptr 0 _ k hk
  rwa [Nat.zero_add] at h

theorem all_continue {bs : List Byte} {f : Nat → Byte}
    (hbs : ∀ k, k < bs.length → bs[k]? = some (f k))
    (h : ∀ k, k < bs.length → continues (f k)) : ∀ b ∈ bs, continues b := by
  intro b hb
  obtain ⟨k, hk, rfl⟩ := List.getElem_of_mem hb
  have := hbs k hk
  rw [List.getElem?_eq_getElem hk] at this
  rw [Option.some.inj this]
  exact h k hk

/-- An integer in the window is decoded to the number its bytes spell. -/
theorem decodeInt_window_ok (w : Nat) {m : Memory} {ptr : Addr} {avail : Count} {n : Nat}
    (ht : Terminates (fun k => m.read (ptr.toNat + k)) n) (h1 : n ≤ maxBytes w)
    (h2 : n ≤ avail.toNat) :
    decodeInt w (windowInt w m ptr avail) =
      .ok (BitVec.ofNat w (spelled (fun k => m.read (ptr.toNat + k)) n)) n :=
  decodeInt_ok w (windowInt_getElem? w m ptr avail) ht h1 (by rw [windowInt_length]; omega)

/-- A window without an end of the integer is too short. -/
theorem decodeInt_window_short (w : Nat) {m : Memory} {ptr : Addr} {avail : Count}
    (h : avail.toNat < maxBytes w)
    (hc : ∀ k, k < avail.toNat → continues (m.read (ptr.toNat + k))) :
    decodeInt w (windowInt w m ptr avail) = .err .bufferTooSmall avail.toNat := by
  have hl := windowInt_length w m ptr avail
  rw [decodeInt_short w (by omega) (all_continue (windowInt_getElem? w m ptr avail) fun k hk =>
    hc k (by omega)), hl, min_eq_left h.le]

/-- A window that begins with too many continuation bits holds no integer. -/
theorem decodeInt_window_long (w : Nat) {m : Memory} {ptr : Addr} {avail : Count}
    (h : maxBytes w ≤ avail.toNat)
    (hc : ∀ k, k < maxBytes w → continues (m.read (ptr.toNat + k))) :
    decodeInt w (windowInt w m ptr avail) = .err .valueTooLarge (maxBytes w) := by
  have hl := windowInt_length w m ptr avail
  exact decodeInt_long w (by omega) fun b hb =>
    all_continue (windowInt_getElem? w m ptr avail) (fun k hk => hc k (by omega)) b
      (List.mem_of_mem_take hb)

/-- Everything the decoder can answer, with the bounds of its count (R101, R154). -/
theorem decodeInt_cases (w : Nat) (bs : List Byte) :
    (∃ v n, decodeInt w bs = .ok v n ∧ 1 ≤ n ∧ n ≤ maxBytes w ∧ n ≤ bs.length) ∨
    (decodeInt w bs = .err .bufferTooSmall bs.length ∧ bs.length < maxBytes w) ∨
    (decodeInt w bs = .err .valueTooLarge (maxBytes w) ∧ maxBytes w ≤ bs.length) := by
  have hbs : ∀ k, k < bs.length → bs[k]? = some (bs.getD k 0) := fun k hk => by simp [hk]
  rcases terminates_or (fun k => bs.getD k 0) (min bs.length (maxBytes w)) with ⟨n, ht, hn⟩ | hc
  · exact Or.inl ⟨_, n, decodeInt_ok w hbs ht (by omega) (by omega), ht.1, by omega, by omega⟩
  · by_cases hl : bs.length < maxBytes w
    · exact Or.inr (Or.inl
        ⟨decodeInt_short w hl (all_continue hbs fun k hk => hc k (by omega)), hl⟩)
    · refine Or.inr (Or.inr ⟨decodeInt_long w (by omega) fun b hb => ?_, by omega⟩)
      obtain ⟨k, hk, rfl⟩ := List.getElem_of_mem hb
      simp only [List.length_take] at hk
      have := hc k (by omega)
      rw [List.getElem_take]
      simpa [show k < bs.length by omega] using this

/-- A command with a bad window is answered with `BadCommand` (R42, R66). -/
theorem replyOf_badWindow {i : Instr} {s : State} {ptr : Addr} {avail : Count}
    (hw : i.window? = some (ptr, avail)) (h : s.cfg.top < ptr.toNat + avail.toNat) :
    replyOf i s = badCommand := by
  cases i <;> simp only [Instr.window?, Option.some.injEq, Prod.mk.injEq, reduceCtorEq] at hw <;>
    obtain ⟨rfl, rfl⟩ := hw <;> exact guardWindow_invalid h _

/-- What a command does depends on the parameters and on memory, and on nothing else of the
state (R22, R30). -/
theorem replyOf_congr (i : Instr) {s s' : State} (hc : s'.cfg = s.cfg) (hm : s'.mem = s.mem) :
    replyOf i s' = replyOf i s := by
  cases i <;> simp [replyOf, hc, hm]

end Sys2Proof.Machine
end

