-- ==== Sys2Proof/WellFormed.lean ====
section
/-! DEFINITION. Which command records and commands the ports of an instance can carry
(spec/30_encoding.md R60). A window past the top of the address space is NOT ill-formed: it is a
malformed command with an answer of its own, `BadCommand` (R42, R66). -/

namespace Sys2Proof

/-- `ptr` is an `AW`-bit field (R60). -/
def ptrFits (cfg : Config) (ptr : Addr) : Bool :=
  decide (ptr.toNat < cfg.top)

/-- `0 <= plen < 2^CW` (R60). -/
def payFits (pay : List Byte) : Bool :=
  decide (pay.length < 2 ^ 64)

/-- The record is one that the command port of this instance can carry (R60). -/
def Cmd.wf (cfg : Config) (c : Cmd) : Bool :=
  ptrFits cfg c.ptr && payFits c.pay

/-- The command's fields are ones that the command port of this instance can carry (R60). -/
def Instr.wf (cfg : Config) (i : Instr) : Bool :=
  (match i.window? with
    | some (ptr, _) => ptrFits cfg ptr
    | none => true) && payFits i.payload

end Sys2Proof
end

