-- ==== Sys2Proof/Tests/Slice0.lean ====
section
/-! SUPPORT. The model's own tests: the well-formedness checks, one record per command code written
out from spec/30_encoding.md R61, vectors of spec/95_test_vectors.md, and for every statement with
hypotheses a witness that they can be met. -/

namespace Sys2Proof.Tests

open Sys2Proof.Machine Sys2Proof.Safety

/-! ## Helpers -/

/-- The state after reset with the given bytes from address `a` on. -/
def placed (a : Nat) (bs : List Byte) : State :=
  State.reset.setMem (Memory.writeSeq { cells := [] } a bs)

/-- The same, with bytes at a second address. -/
def placed2 (a : Nat) (bs : List Byte) (b : Nat) (cs : List Byte) : State :=
  (placed a bs).setMem ((placed a bs).mem.writeSeq b cs)

/-- The state after reset with inputs waiting. -/
def waiting (es : List Event) : State :=
  State.reset.setInputs es

/-- `n` bytes with a continuation bit and no other bit. -/
def unended (n : Nat) : List Byte :=
  List.replicate n 0x80

def nextOf (o : Host.Outcome State Fault Refusal) : Option State :=
  match o with
  | .next t => some t
  | .fault _ => none
  | .refused _ => none

def faultOf (o : Host.Outcome State Fault Refusal) : Option Fault :=
  match o with
  | .next _ => none
  | .fault r => some r
  | .refused _ => none

def refusalOf (o : Host.Outcome State Fault Refusal) : Option Refusal :=
  match o with
  | .next _ => none
  | .fault _ => none
  | .refused r => some r

/-- The response of a command. -/
def response (i : Instr) (s : State) : Option Rsp :=
  (nextOf (exec i s)).bind fun t => t.responses.getLast?

/-- `n` bytes from address `a` on after a command. -/
def bytesAfter (i : Instr) (s : State) (a n : Nat) : Option (List Byte) :=
  (nextOf (exec i s)).map fun t => t.mem.readSeq a n

/-- The command completes with a response of which `P` holds. -/
abbrev Answers (i : Instr) (s : State) (P : Rsp → Prop) : Prop :=
  ∃ t r, exec i s = .next t ∧ t.responses = s.responses ++ [r] ∧ P r

theorem answers_of {i : Instr} {s : State} {P : Rsp → Prop} (h : P (replyOf i s).rsp) :
    Answers i s P :=
  ⟨_, _, exec_eq_complete i s, rfl, h⟩

/-- The command completes. -/
theorem completes (i : Instr) (s : State) : ∃ t, exec i s = .next t :=
  ⟨_, exec_eq_complete i s⟩

/-! ## Well-formedness (R5, R60) -/

theorem test_ptr_at_top_refused : ptrFits { aw := 32 } 0x100000000 = false := by decide
theorem test_ptr_below_top_accepted : ptrFits { aw := 32 } 0xFFFFFFFF = true := by decide
theorem test_record_with_wide_ptr_refused :
    Cmd.wf { aw := 8 } { Cmd.blank 0x2 with ptr := 256 } = false := by decide
theorem test_command_with_wide_ptr_refused :
    Instr.wf { aw := 8 } (.decVarint 256 0) = false := by decide
theorem test_command_accepted : Instr.wf { aw := 8 } (.decVarint 255 9) = true := by decide
theorem test_long_payload_refused : payFits (List.replicate (2 ^ 64) 0) = false := by
  simp only [payFits, List.length_replicate, decide_eq_false_iff_not]
  omega
theorem test_short_payload_accepted : payFits [1, 2, 3] = true := by decide
theorem test_aw_of_zero_refused : Config.wf { aw := 0 } = false := by decide
theorem test_aw_of_64_refused : Config.wf { aw := 64 } = false := by decide
theorem test_aw_bounds_accepted :
    Config.wf { aw := 1 } = true ∧ Config.wf { aw := 63 } = true := by decide
theorem test_memory_of_zero_cell_refused :
    Memory.wf { cells := [(3, 0)] } = false ∧ Memory.wf { cells := [(4, 1), (3, 1)] } = false ∧
    Memory.wf { cells := [(3, 1), (4, 1)] } = true := by decide

/-! ## Decoding: `op` written out from the table of R61 -/

/-- A record with the given code and every other field filled. -/
def filled (op : BitVec 4) : Cmd :=
  { op := op, val := 300, x := 1, y := 2, z := 3, ptr := 0x100, avail := 8, pay := [7] }

theorem test_decode_encVarint : decode (filled 0b0000) = .ok (.encVarint 300 0x100 8) := rfl
theorem test_decode_encVarlong : decode (filled 0b0001) = .ok (.encVarlong 300 0x100 8) := rfl
theorem test_decode_decVarint : decode (filled 0b0010) = .ok (.decVarint 0x100 8) := rfl
theorem test_decode_decVarlong : decode (filled 0b0011) = .ok (.decVarlong 0x100 8) := rfl
theorem test_decode_sizeVarint : decode (filled 0b0100) = .ok (.sizeVarint 300) := rfl
theorem test_decode_sizeVarlong : decode (filled 0b0101) = .ok (.sizeVarlong 300) := rfl
theorem test_decode_encPos : decode (filled 0b1000) = .ok (.encPos 1 2 3 0x100 8) := rfl
theorem test_decode_decPos : decode (filled 0b1010) = .ok (.decPos 0x100 8) := rfl
theorem test_decode_encPkt : decode (filled 0b1100) = .ok (.encPkt 300 [7] 0x100 8) := rfl
theorem test_decode_decPkt : decode (filled 0b1110) = .ok (.decPkt 0x100 8) := rfl
theorem test_decode_reserved :
    [0b0110, 0b0111, 0b1001, 0b1011, 0b1101, 0b1111].all
      (fun op => match decode (filled op) with
        | .ok _ => false
        | .error (.reservedCode o) => o == op) = true := rfl
theorem test_fetch_word_runs :
    (nextOf (step (State.reset.withFetchWord 8 0b0101))).map State.responses =
      some [bare .ok 1] := by decide

/-! ## Vectors of spec/95_test_vectors.md, one step each -/

/-- V-SIZE-11, V-SIZE-13. -/
theorem test_sizeVarint :
    response (.sizeVarint 0xFFFFFFFFFFFFFFFF) State.reset = some (bare .ok 5) ∧
    response (.sizeVarint 0xFFFFFFFF00000000) State.reset = some (bare .ok 1) := by decide

/-- V-SIZE-25, V-SIZE-27. -/
theorem test_sizeVarlong :
    response (.sizeVarlong 9223372036854775807) State.reset = some (bare .ok 9) ∧
    response (.sizeVarlong 0xFFFFFFFF80000000) State.reset = some (bare .ok 10) := by decide

/-- V-ENC-35: `05`, the other window bytes stay. -/
theorem test_encVarint :
    response (.encVarint 5 0x100 3) (placed 0x100 [0xaa, 0xbb, 0xcc]) = some (bare .ok 1) ∧
    bytesAfter (.encVarint 5 0x100 3) (placed 0x100 [0xaa, 0xbb, 0xcc]) 0x100 3 =
      some [0x05, 0xbb, 0xcc] := by decide

/-- V-ENC-19: the window has room for one of the two bytes of 300. -/
theorem test_encVarint_short :
    response (.encVarint 300 0x100 1) State.reset = some (bare .bufferTooSmall 1) ∧
    bytesAfter (.encVarint 300 0x100 1) State.reset 0x100 2 = some [0xac, 0x00] := by decide

/-- V-ENC-30. -/
theorem test_encVarlong :
    response (.encVarlong 0xFFFFFFFF80000000 0x100 10) State.reset = some (bare .ok 10) ∧
    bytesAfter (.encVarlong 0xFFFFFFFF80000000 0x100 10) State.reset 0x100 10 =
      some [0x80, 0x80, 0x80, 0x80, 0xf8, 0xff, 0xff, 0xff, 0xff, 0x01] := by decide

/-- P4, step 2. -/
theorem test_encVarlong_short :
    response (.encVarlong 0xFFFFFFFFFFFFFFFF 0x500 4) State.reset =
      some (bare .bufferTooSmall 4) ∧
    bytesAfter (.encVarlong 0xFFFFFFFFFFFFFFFF 0x500 4) State.reset 0x500 5 =
      some [0xff, 0xff, 0xff, 0xff, 0x00] := by decide

/-- V-DEC-9, V-DEC-19. -/
theorem test_decVarint :
    response (.decVarint 0x100 5) (placed 0x100 [0xff, 0xff, 0xff, 0xff, 0x7f]) =
      some { bare .ok 5 with val := 0xFFFFFFFFFFFFFFFF } ∧
    response (.decVarint 0x100 3) (placed 0x100 [0xdd, 0xc7, 0x01]) =
      some { bare .ok 3 with val := 25565 } := by decide

/-- V-DEC-14, V-DEC-20. -/
theorem test_decVarint_fails :
    response (.decVarint 0x100 4) (placed 0x100 (unended 4)) = some (bare .bufferTooSmall 4) ∧
    response (.decVarint 0x100 6) (placed 0x100 (unended 5 ++ [0x01])) =
      some (bare .valueTooLarge 5) := by decide

/-- V-DEC-29, V-DEC-33. -/
theorem test_decVarlong :
    response (.decVarlong 0x100 10) (placed 0x100 (unended 9 ++ [0x01])) =
      some { bare .ok 10 with val := 0x8000000000000000 } ∧
    response (.decVarlong 0x100 6) (placed 0x100 (unended 5 ++ [0x01])) =
      some { bare .ok 6 with val := 34359738368 } := by decide

/-- V-DEC-23, V-DEC-25. -/
theorem test_decVarlong_fails :
    response (.decVarlong 0x100 9) (placed 0x100 (unended 9)) = some (bare .bufferTooSmall 9) ∧
    response (.decVarlong 0x100 11) (placed 0x100 (unended 11)) =
      some (bare .valueTooLarge 10) := by decide

/-- V-POS-1. -/
theorem test_encPos :
    response (.encPos 257 42 (-513) 0x100 8) State.reset = some (bare .ok 8) ∧
    bytesAfter (.encPos 257 42 (-513) 0x100 8) State.reset 0x100 8 =
      some [0x00, 0x00, 0x40, 0x40, 0xab, 0xff, 0xfd, 0xff] := by decide

/-- V-POS-1 back, and a window that is too short. -/
theorem test_decPos :
    response (.decPos 0x100 10)
        (placed 0x100 [0x00, 0x00, 0x40, 0x40, 0xab, 0xff, 0xfd, 0xff, 0xac, 0x02]) =
      some { bare .ok 8 with x := 257, y := 42, z := -513 } ∧
    response (.decPos 0x100 7) State.reset = some (bare .bufferTooSmall 7) := by decide

/-- V-PKT-1. -/
theorem test_encPkt :
    response (.encPkt 4 [3, 2, 1, 0] 0x1000 16) State.reset = some (bare .ok 6) ∧
    bytesAfter (.encPkt 4 [3, 2, 1, 0] 0x1000 16) State.reset 0x1000 7 =
      some [0x05, 0x04, 0x03, 0x02, 0x01, 0x00, 0x00] := by decide

/-- V-PKT-38, V-PKT-40. -/
theorem test_decPkt :
    response (.decPkt 0x100 6) (placed 0x100 [0x05, 0xff, 0xff, 0xff, 0xff, 0x0f]) =
      some { bare .ok 6 with val := 0xFFFFFFFFFFFFFFFF } ∧
    response (.decPkt 0x100 4) (placed 0x100 [0x82, 0x00, 0x11, 0x22]) =
      some { bare .ok 4 with val := 17, pay := [0x22] } := by decide

/-- V-PKT-35, V-PKT-36, V-PKT-42. -/
theorem test_decPkt_fails :
    response (.decPkt 0x100 7) (placed 0x100 ([0x06] ++ unended 5 ++ [0x00])) =
      some (bare .valueTooLarge 6) ∧
    response (.decPkt 0x100 5) (placed 0x100 ([0x04] ++ unended 4)) =
      some (bare .valueTooLarge 5) ∧
    response (.decPkt 0x100 3) (placed 0x100 ([0x05] ++ unended 2)) =
      some (bare .bufferTooSmall 3) := by decide

/-- V-BAD-3, V-BAD-4: one byte past the top of the address space, and none past it. -/
theorem test_window_at_the_top :
    response (.encVarint 1 0xFFFFFFFF 2) State.reset = some (bare .badCommand 0) ∧
    response (.encVarint 1 0xFFFFFFFF 1) State.reset = some (bare .ok 1) := by decide

/-- R185, R27: the two stops, both of inputs that are not commands. -/
theorem test_stops :
    refusalOf (step (waiting [.writeDuring (encode (.decVarint 0x100 2)) 0x101 5])) =
      some (.windowRace 0x101) ∧
    faultOf (step (waiting [.write 0x100000000 5])) = some (.noSuchAddress 0x100000000) := by
  decide

/-! ## Witnesses: the hypotheses of the statements can be met, clause by clause, at boundary values -/

/-- A `SIZE_VARINT` record, and one that differs in fields its format does not list. -/
theorem witness_IgnoredFieldsHaveNoInfluence :
    decode { Cmd.blank 0x4 with val := 5 } = .ok (.sizeVarint 5) ∧
    Cmd.keep .fSize { Cmd.blank 0x4 with val := 5, ptr := 9, avail := 2 } =
      Cmd.keep .fSize { Cmd.blank 0x4 with val := 5 } := ⟨rfl, rfl⟩

theorem witness_MalformedCommandAnswersBadCommand :
    (waiting [.command (Cmd.blank 0xF)]).inputs = [.command (Cmd.blank 0xF)] ∧
    Malformed { aw := 32 } (Cmd.blank 0xF) ∧
    Malformed { aw := 32 } { Cmd.blank 0x0 with ptr := 0xFFFFFFFF, avail := 2 } ∧
    ¬ Malformed { aw := 32 } { Cmd.blank 0x0 with ptr := 0xFFFFFFFF, avail := 1 } ∧
    ¬ Malformed { aw := 32 } { Cmd.blank 0x4 with ptr := 0xFFFFFFFF, avail := 2 } := by decide

theorem witness_StepRunsThePresentedCommand :
    (waiting [.command (Cmd.blank 0x4), .reset]).inputs = [.command (Cmd.blank 0x4), .reset] ∧
    decode (Cmd.blank 0x4) = .ok (.sizeVarint 0) := ⟨rfl, rfl⟩

theorem witness_StepWithNoInputIsIdle : State.reset.inputs = [] := rfl

theorem witness_ResetWhileIdleChangesNothing : (waiting [.reset]).inputs = [.reset] := rfl

theorem witness_StepKeepsStateWellFormed :
    ∃ t, StateWf (placed 0xFFFFFFFF [1]) ∧
      step ((placed 0xFFFFFFFF [1]).setInputs [.write 0xFFFFFFFF 0]) = .next t :=
  ⟨_, ⟨by decide, by decide, by decide⟩, rfl⟩

/-! ### The ten commands -/

theorem witness_SizeVarintAnswersTheSize : (Cmd.blank 0x4).op = 0x4 := rfl

theorem witness_SizeVarlongAnswersTheSize : (Cmd.blank 0x5).op = 0x5 := rfl

/-- A bad window, a window with room for exactly the two bytes of 300, and one with less. -/
theorem witness_EncVarintStoresTheEncoding :
    2 ^ 32 < (0xFFFFFFFF : Addr).toNat + (2 : Count).toNat ∧
    (0xFFFFFFFE : Addr).toNat + (2 : Count).toNat ≤ 2 ^ 32 ∧
    (intBytes (300 : Word32)).length ≤ (2 : Count).toNat ∧
    (1 : Count).toNat < (intBytes (300 : Word32)).length := by decide

/-- A bad window, a window with room for exactly the ten bytes of -1, and one with less. -/
theorem witness_EncVarlongStoresTheEncoding :
    2 ^ 32 < (0xFFFFFFF7 : Addr).toNat + (10 : Count).toNat ∧
    (0xFFFFFFF6 : Addr).toNat + (10 : Count).toNat ≤ 2 ^ 32 ∧
    (intBytes (-1 : Word64)).length ≤ (10 : Count).toNat ∧
    (9 : Count).toNat < (intBytes (-1 : Word64)).length := by decide

/-- The longest VarInt in a window of its size, a window one byte too short, and five bytes
without an end. -/
theorem witness_DecVarintAnswersTheValue :
    2 ^ 32 < (0x100000000 : Addr).toNat + (1 : Count).toNat ∧
    (0xFFFFFFFB : Addr).toNat + (5 : Count).toNat ≤ 2 ^ 32 ∧
    Terminates (windowByte (placed 0xFFFFFFFB (unended 4 ++ [0x01])) 0xFFFFFFFB) 5 ∧
    (∀ k, k < (4 : Count).toNat →
      continues (windowByte (placed 0xFFFFFFFB (unended 4)) 0xFFFFFFFB k)) ∧
    (∀ k, k < 5 → continues (windowByte (placed 0xFFFFFFFB (unended 5)) 0xFFFFFFFB k)) := by
  decide

/-- The longest VarLong, a window one byte too short, and ten bytes without an end. -/
theorem witness_DecVarlongAnswersTheValue :
    2 ^ 32 < (0x100000000 : Addr).toNat + (1 : Count).toNat ∧
    (0x100 : Addr).toNat + (10 : Count).toNat ≤ 2 ^ 32 ∧
    Terminates (windowByte (placed 0x100 (unended 9 ++ [0x01])) 0x100) 10 ∧
    (∀ k, k < (9 : Count).toNat → continues (windowByte (placed 0x100 (unended 9)) 0x100 k)) ∧
    (∀ k, k < 10 → continues (windowByte (placed 0x100 (unended 10)) 0x100 k)) := by
  decide

theorem witness_EncPosStoresTheWord :
    2 ^ 32 < (0xFFFFFFF9 : Addr).toNat + (8 : Count).toNat ∧
    (0xFFFFFFF8 : Addr).toNat + (8 : Count).toNat ≤ 2 ^ 32 ∧
    (posBytes 0).length ≤ (8 : Count).toNat ∧ (7 : Count).toNat < (posBytes 0).length := by decide

theorem witness_DecPosAnswersTheFields :
    2 ^ 32 < (0xFFFFFFF9 : Addr).toNat + (8 : Count).toNat ∧
    (0xFFFFFFF8 : Addr).toNat + (8 : Count).toNat ≤ 2 ^ 32 ∧
    (7 : Count).toNat < 8 ∧ 8 ≤ (8 : Count).toNat := by decide

/-- A bad window; payloads one byte too long and just short enough for opcode 4 (one byte); a
frame of six bytes in windows of six and five. -/
theorem witness_EncPktStoresTheFrame :
    2 ^ 32 < (0xFFFFFFFF : Addr).toNat + (2 : Count).toNat ∧
    IsSize 4 1 ∧ 2147483647 < 1 + (List.replicate 2147483647 (0 : Byte)).length ∧
    1 + (List.replicate 2147483646 (0 : Byte)).length ≤ 2147483647 ∧
    (pktBytes 4 [3, 2, 1, 0]).length ≤ (6 : Count).toNat ∧
    (5 : Count).toNat < (pktBytes 4 [3, 2, 1, 0]).length := by
  refine ⟨by decide, ⟨by decide, by decide, fun _ h _ => h⟩, ?_, ?_, by decide, by decide⟩
  · rw [List.length_replicate]; omega
  · rw [List.length_replicate]

/-- The prefix: too short, without an end, ended in its last byte. -/
theorem witness_DecPktAnswersTheFrame_prefix :
    (0x100 : Addr).toNat + (5 : Count).toNat ≤ 2 ^ 32 ∧
    (∀ k, k < (4 : Count).toNat → continues (windowByte (placed 0x100 (unended 4)) 0x100 k)) ∧
    (∀ k, k < 5 → continues (windowByte (placed 0x100 (unended 5)) 0x100 k)) ∧
    Terminates (windowByte (placed 0x100 (unended 4 ++ [0x08])) 0x100) 5 := by
  decide

/-- The frame: a negative length; a window one byte short of the frame; five opcode bytes without an
end; a frame of four bytes without an end, and an empty frame; an opcode that fills its frame. -/
theorem witness_DecPktAnswersTheFrame_body :
    (BitVec.ofNat 32 (spelled (windowByte (placed 0x100 (unended 4 ++ [0x08])) 0x100) 5)).toInt
      < 0 ∧
    (0 : Int) ≤ (2 : Word32).toInt ∧ (2 : Count).toNat < 1 + (2 : Word32).toNat ∧
    1 + (5 : Word32).toNat ≤ (6 : Count).toNat ∧
    (∀ k, k < 5 → continues (windowByte (placed 0x100 ([0x05] ++ unended 5)) 0x100 (1 + k))) ∧
    (∀ k, k < (4 : Word32).toNat →
      continues (windowByte (placed 0x100 ([0x04] ++ unended 4)) 0x100 (1 + k))) ∧
    (∀ k, k < (0 : Word32).toNat → continues (windowByte (placed 0x100 [0x00]) 0x100 (1 + k))) ∧
    Terminates (fun k => windowByte (placed 0x100 ([0x05] ++ unended 4 ++ [0x0f])) 0x100 (1 + k))
      5 := by
  decide

/-! ### What holds of every command -/

theorem witness_EarlierCommandsHaveNoInfluence :
    (State.reset.deliver (bare .badCommand 0)).cfg = State.reset.cfg ∧
    (State.reset.deliver (bare .badCommand 0)).mem = State.reset.mem := ⟨rfl, rfl⟩

/-- The first byte after the window; the byte before it; a size command and a bad window. -/
theorem witness_NoByteOutsideTheWindowChanges :
    (∃ t, exec (.encVarint 5 0x100 8) State.reset = .next t) ∧
    (0x100 : Addr).toNat + (8 : Count).toNat ≤ 2 ^ 32 ∧ 0x0FF < (0x100 : Addr).toNat ∧
    (0x100 : Addr).toNat + (8 : Count).toNat ≤ 0x108 ∧
    (Instr.sizeVarint 5).window? = none ∧
    ¬ (0xFFFFFFFF : Addr).toNat + (2 : Count).toNat ≤ 2 ^ 32 :=
  ⟨completes _ _, by decide⟩

/-- Two windows of the same two bytes at different addresses; an encode command; a size command. -/
theorem witness_AnswerDependsOnlyOnTheWindow :
    (placed 0xFFFFFFFE [0x80, 0x01]).cfg = (placed 0x100 [0x80, 0x01]).cfg ∧
    (Instr.decVarint 0x100 2).window? = some (0x100, 2) ∧
    (0x100 : Addr).toNat + (2 : Count).toNat ≤ 2 ^ 32 ∧
    (0xFFFFFFFE : Addr).toNat + (2 : Count).toNat ≤ 2 ^ 32 ∧
    (∀ k, k < (2 : Count).toNat → windowByte (placed 0xFFFFFFFE [0x80, 0x01]) 0xFFFFFFFE k =
      windowByte (placed 0x100 [0x80, 0x01]) 0x100 k) ∧
    (Instr.encVarint 5 0x100 2).window? = some (0x100, 2) ∧
    (Instr.encVarint 5 0x100 2).format ≠ .fDec ∧ (Instr.sizeVarint 5).window? = none := by decide

theorem witness_EncodersNeverReadMemory :
    (placed 0x100 [1]).cfg = State.reset.cfg ∧ (Instr.encVarint 5 0x100 8).format = .fEnc ∧
    (Instr.encPos 1 2 3 0x100 8).format = .fPos ∧
    (Instr.encPkt 4 [] 0x100 8).format = .fPkt := ⟨rfl, rfl, rfl, rfl⟩

theorem witness_DecodersAndSizesNeverWriteMemory :
    (Instr.decPkt 0x100 8).format = .fDec ∧ (Instr.sizeVarint 5).format = .fSize := ⟨rfl, rfl⟩

/-- A `BufferTooSmall` response, and an `OK` one that counts its whole window up to `2^AW`. -/
theorem witness_ConsumedNeverExceedsAvail :
    Answers (.encVarint 300 0x100 1) State.reset (fun r => r.status = .bufferTooSmall) ∧
    Answers (.encVarint 300 0xFFFFFFFE 2) State.reset
      (fun r => r.status = .ok ∧ r.consumed = 2) :=
  ⟨answers_of (by decide), answers_of (by decide)⟩

theorem witness_UnproducedResultFieldsAreZero :
    Answers (.decVarint 0x100 0) State.reset (fun r => r.status ≠ .ok) ∧
    Answers (.decVarint 0x100 1) (placed 0x100 [5]) (fun r => r.val ≠ 0) ∧
    Answers (.decPos 0x100 8) (placed 0x100 [5]) (fun r => r.x ≠ 0) ∧
    Answers (.decPkt 0x100 3) (placed 0x100 [2, 7, 9]) (fun r => r.pay ≠ []) :=
  ⟨answers_of (by decide), answers_of (by decide), answers_of (by decide), answers_of (by decide)⟩

theorem witness_StatusesOfEachCommand :
    Answers (.decPos 0x100 7) State.reset (fun r => r.status = .bufferTooSmall) ∧
    Answers (.decPkt 0x100 1) State.reset (fun r => r.status = .valueTooLarge) ∧
    Answers (.decVarint 0x100000000 1) State.reset (fun r => r.status = .badCommand) :=
  ⟨answers_of (by decide), answers_of (by decide), answers_of (by decide)⟩

/-! ### Laws of the wire formats -/

theorem witness_EncodedIntegersAreShortest :
    1 < intSize (128 : Word32) ∧ intSize (127 : Word32) = 1 ∧ (-1 : Word32).msb = true ∧
    (intBytes (268435456 : Word32))[4]? = some 0x01 ∧
    1 < intSize (128 : Word64) ∧ intSize (127 : Word64) = 1 ∧ (-1 : Word64).msb = true ∧
    (intBytes (-1 : Word64))[9]? = some 0x01 := by decide

theorem witness_SizeAgreesWithEncoder :
    Answers (.encVarint 300 0x100 2) State.reset (fun r => r.status = .ok) ∧
    Answers (.sizeVarint 300) State.reset (fun _ => True) ∧
    Answers (.encVarlong 300 0x100 2) State.reset (fun r => r.status = .ok) ∧
    Answers (.sizeVarlong 300) State.reset (fun _ => True) :=
  ⟨answers_of (by decide), answers_of trivial, answers_of (by decide), answers_of trivial⟩

/-- Written in a window of exactly its size and read back in one of the same size. -/
theorem witness_IntegerRoundTrip :
    Answers (.encVarint 300 0xFFFFFFFE 2) State.reset
      (fun r => r.status = .ok ∧ r.consumed.toNat ≤ (2 : Count).toNat) ∧
    Answers (.encVarlong 300 0xFFFFFFFE 2) State.reset
      (fun r => r.status = .ok ∧ r.consumed.toNat ≤ (2 : Count).toNat) ∧
    (0xFFFFFFFE : Addr).toNat + (2 : Count).toNat ≤ 2 ^ 32 :=
  ⟨answers_of (by decide), answers_of (by decide), by decide⟩

theorem witness_DecodePrefixProperty :
    decodeInt 32 [0x80, 0x01, 0x99] = .ok 128 2 ∧
    [0x80, 0x01].take 2 = [0x80, 0x01, 0x99].take 2 ∧
    decodeInt 64 (unended 9) = .err .bufferTooSmall 9 := by decide

theorem witness_WhatFollowsAnItemHasNoInfluence :
    Answers (.decVarint 0x100 3) (placed 0x100 [0x80, 0x01, 0x99]) (fun r => r.status = .ok ∧
      r.consumed.toNat ≤ (2 : Count).toNat ∧ ∀ k, k < r.consumed.toNat →
        windowByte (placed 0x200 [0x80, 0x01]) 0x200 k =
          windowByte (placed 0x100 [0x80, 0x01, 0x99]) 0x100 k) ∧
    Answers (.decVarlong 0x100 3) (placed 0x100 [0x80, 0x01, 0x99]) (fun r => r.status = .ok ∧
      r.consumed.toNat ≤ (2 : Count).toNat) ∧
    Answers (.decPos 0x100 9) State.reset (fun r => r.status = .ok ∧
      r.consumed.toNat ≤ (8 : Count).toNat) ∧
    Answers (.decPkt 0x100 3) (placed 0x100 [0x01, 0x07, 0x99]) (fun r => r.status = .ok ∧
      r.consumed.toNat ≤ (2 : Count).toNat) ∧
    (0x200 : Addr).toNat + (8 : Count).toNat ≤ 2 ^ 32 :=
  ⟨answers_of (by decide), answers_of (by decide), answers_of (by decide), answers_of (by decide),
    by decide⟩

theorem witness_TruncatedIntegerDoesNotDecode :
    Answers (.encVarint 300 0x100 1) State.reset (fun r => r.status = .bufferTooSmall) ∧
    Answers (.encVarlong 300 0x100 0) State.reset (fun r => r.status = .bufferTooSmall) :=
  ⟨answers_of (by decide), answers_of (by decide)⟩

/-- Fields at and past the ends of their ranges, in the last eight bytes of the address space. -/
theorem witness_PositionFieldsAliasAlone :
    8 ≤ (8 : Count).toNat ∧ (0xFFFFFFF8 : Addr).toNat + (8 : Count).toNat ≤ 2 ^ 32 ∧
    ∃ t, exec (.encPos 33554432 4096 67108864 0xFFFFFFF8 8) State.reset = .next t :=
  ⟨by decide, by decide, completes _ _⟩

theorem witness_PositionRoundTripInRange :
    8 ≤ (8 : Count).toNat ∧ (0xFFFFFFF8 : Addr).toNat + (8 : Count).toNat ≤ 2 ^ 32 ∧
    -2 ^ 25 ≤ (-33554432 : Word32).toInt ∧ (33554431 : Word32).toInt < 2 ^ 25 ∧
    -2 ^ 11 ≤ (-2048 : Word32).toInt ∧ (2047 : Word32).toInt < 2 ^ 11 ∧
    (-33554432 : Word32).toInt < 2 ^ 25 ∧ -2 ^ 25 ≤ (33554431 : Word32).toInt ∧
    (-2048 : Word32).toInt < 2 ^ 11 ∧
    ∃ t, exec (.encPos (-33554432) (-2048) 33554431 0xFFFFFFF8 8) State.reset = .next t :=
  ⟨by decide, by decide, by decide, by decide, by decide, by decide, by decide, by decide,
    by decide, completes _ _⟩

theorem witness_PositionBytesRoundTrip :
    8 ≤ (8 : Count).toNat ∧ (0xFFFFFFF8 : Addr).toNat + (8 : Count).toNat ≤ 2 ^ 32 ∧
    Answers (.decPos 0xFFFFFFF8 8) (placed 0xFFFFFFF8 [0x80]) (fun r => ∃ v,
      exec (.encPos r.x r.y r.z 0x100 8) State.reset = .next v) :=
  ⟨by decide, by decide, answers_of (completes _ _)⟩

/-- A frame of six bytes, a window of exactly six, and one of five. -/
theorem witness_PacketRoundTrip :
    Answers (.encPkt 4 [3, 2, 1, 0] 0xFFFFFFFA 6) State.reset (fun r => r.status = .ok ∧
      r.consumed.toNat ≤ (6 : Count).toNat ∧ (5 : Count).toNat < r.consumed.toNat) ∧
    (0xFFFFFFFA : Addr).toNat + (6 : Count).toNat ≤ 2 ^ 32 :=
  ⟨answers_of (by decide), by decide⟩

/-- Opcode 4 and four payload bytes: length 5, prefix one byte. -/
theorem witness_FrameIsTwoVarintsAndThePayload :
    Answers (.encPkt 4 [3, 2, 1, 0] 0x100 6) State.reset (fun r => r.status = .ok) ∧
    IsSize 4 ((5 : Word64).toNat - [3, 2, 1, (0 : Byte)].length) ∧
    [3, 2, 1, (0 : Byte)].length ≤ (5 : Word64).toNat ∧
    Answers (.encVarint 5 0x100 6) State.reset
      (fun q => q.status = .ok ∧ (0x101 : Addr).toNat = (0x100 : Addr).toNat + q.consumed.toNat) ∧
    Answers (.encVarint 4 0x101 5)
      (State.reset.complete 0x100 (replyOf (.encVarint 5 0x100 6) State.reset))
      (fun p => p.status = .ok) :=
  ⟨answers_of (by decide), ⟨by decide, by decide, fun _ h _ => h⟩, by decide,
    answers_of (by decide), answers_of (by decide)⟩

/-! ### What reaches the block from outside -/

theorem witness_ResetDuringCommandLeavesAPrefix :
    (waiting [.resetDuring (Cmd.blank 0xF)]).inputs = [.resetDuring (Cmd.blank 0xF)] ∧
    Malformed { aw := 32 } (Cmd.blank 0xF) ∧
    decode (Cmd.blank 0x2) = .ok (.decVarint 0 0) ∧ (Instr.decVarint 0 0).format = .fDec ∧
    decode (Cmd.blank 0xC) = .ok (.encPkt 0 [] 0 0) ∧ (Instr.encPkt 0 [] 0 0).format = .fPkt := by
  decide

/-- The bytes just before and just after the window. -/
theorem witness_WriteOutsideTheWindowCommutes :
    Lawful { aw := 32 } (.writeDuring (encode (.encVarint 5 0x100 8)) 0x0FF 1) ∧
    Lawful { aw := 32 } (.writeDuring (encode (.encVarint 5 0x100 8)) 0x108 1) := by
  constructor <;> refine ⟨by decide, fun i ptr avail hd hw _ => ?_⟩ <;>
    obtain rfl : Instr.encVarint 5 0x100 8 = i := Except.ok.inj hd <;>
    obtain ⟨rfl, rfl⟩ : (0x100 : Addr) = ptr ∧ (8 : Count) = avail := by
      simpa [Instr.window?] using hw
  all_goals decide

/-- The first and the last byte of the window. -/
theorem witness_WriteInsideTheWindowIsRefused :
    decode (encode (.decVarint 0x100 2)) = .ok (.decVarint 0x100 2) ∧
    (Instr.decVarint 0x100 2).window? = some (0x100, 2) ∧
    (0x100 : Addr).toNat + (2 : Count).toNat ≤ 2 ^ 32 ∧
    (0x100 : Addr).toNat ≤ (0x100 : Addr).toNat ∧
    (0x101 : Addr).toNat < (0x100 : Addr).toNat + (2 : Count).toNat := by decide

theorem witness_CallerWriteIsReadBack :
    (waiting [.write 0xFFFFFFFF 7]).inputs = [.write 0xFFFFFFFF 7] ∧
    (0xFFFFFFFF : Addr).toNat < 2 ^ 32 := by decide

theorem witness_WriteToAbsentAddressFaults :
    (waiting [.write 0x100000000 7]).inputs = [.write 0x100000000 7] ∧
    2 ^ 32 ≤ (0x100000000 : Addr).toNat := by decide

theorem witness_DeliveredResponsesNeverChange :
    ∃ t, step (waiting [.command (Cmd.blank 0x6)]) = .next t := ⟨_, rfl⟩

theorem witness_LawfulRunAnswersEveryCommandOnce :
    ∀ e ∈ (waiting [.write 0xFFFFFFFF 1, .command (Cmd.blank 0x4), .reset]).inputs,
      Lawful { aw := 32 } e := by
  intro e he
  simp only [waiting, setInputs_inputs, List.mem_cons, List.not_mem_nil, or_false] at he
  rcases he with rfl | rfl | rfl
  · show (0xFFFFFFFF : Addr).toNat < 2 ^ 32
    decide
  · trivial
  · trivial

end Sys2Proof.Tests
end

/-! PROOFS. What a command's answer depends on (spec/10_state.md R30, R31): the reply of a command
is carried from one window to another of the same length, and the size commands have a constant
answer. -/

namespace Sys2Proof.Machine

open Sys2Proof.Safety

/-! ## Windows that hold the same bytes -/

/-- Two sequences of equal bytes, wherever they lie, are read as the same list. -/
theorem readSeq_congr {m m' : Memory} {a b n : Nat}
    (h : ∀ k, k < n → m'.read (b + k) = m.read (a + k)) : m'.readSeq b n = m.readSeq a n := by
  apply List.ext_getElem?
  intro k
  by_cases hk : k < n
  · rw [readSeq_getElem? _ _ hk, readSeq_getElem? _ _ hk, h k hk]
  · rw [List.getElem?_eq_none (by simpa using hk), List.getElem?_eq_none (by simpa using hk)]

/-- The contents of two windows of `avail` bytes agree: at `ptr` in `s` and at `q` in `s'`. -/
def SameWindowBytes (s s' : State) (ptr q : Addr) (avail : Count) : Prop :=
  ∀ k, k < avail.toNat → windowByte s' q k = windowByte s ptr k

section
variable {s s' : State} {ptr q : Addr} {avail : Count}

/-- Any part of the two windows that lies inside them is the same (R40). -/
theorem SameWindowBytes.windowSeq_eq (h : SameWindowBytes s s' ptr q avail) {i n : Nat}
    (hin : i + n ≤ avail.toNat) : windowSeq s'.mem q i n = windowSeq s.mem ptr i n := by
  refine readSeq_congr fun k hk => ?_
  rw [Nat.add_assoc, Nat.add_assoc]
  exact h (i + k) (by omega)

/-- An integer decode reaches the same bytes in both windows (R103, R104). -/
theorem SameWindowBytes.windowInt_eq (h : SameWindowBytes s s' ptr q avail) (w : Nat) :
    windowInt w s'.mem q avail = windowInt w s.mem ptr avail :=
  h.windowSeq_eq (by omega)

/-! ## A command moved to another window -/

/-- Both windows pass the window test, so equal answers behind it stay equal (R42). -/
theorem guardWindow_moved {cfg : Config} {r r' : Reply} (hp : ptr.toNat + avail.toNat ≤ cfg.top)
    (hq : q.toNat + avail.toNat ≤ cfg.top) (hr : r' = r) :
    guardWindow cfg q avail r' = guardWindow cfg ptr avail r := by
  rw [guardWindow_valid hq, guardWindow_valid hp, hr]

/-- `DEC_PKT` reads the length and then, only if the window holds the whole frame, the frame's body;
both lie inside the window (R135). -/
theorem decPktReply_moved {cfg : Config} (hp : ptr.toNat + avail.toNat ≤ cfg.top)
    (hq : q.toNat + avail.toNat ≤ cfg.top) (h : SameWindowBytes s s' ptr q avail) :
    decPktReply cfg s'.mem q avail = decPktReply cfg s.mem ptr avail := by
  refine guardWindow_moved hp hq ?_
  rw [h.windowInt_eq]
  cases decodeInt 32 (windowInt 32 s.mem ptr avail) with
  | err st c => rfl
  | ok l n =>
    by_cases hfit : avail.toNat < n + l.toNat
    · simp only [hfit, if_true]
    · simp only [h.windowSeq_eq (Nat.not_lt.1 hfit)]

/-- `DEC_POS` reads the first 8 bytes of a window that has them (R116). -/
theorem decPosReply_moved {cfg : Config} (hp : ptr.toNat + avail.toNat ≤ cfg.top)
    (hq : q.toNat + avail.toNat ≤ cfg.top) (h : SameWindowBytes s s' ptr q avail) :
    decPosReply cfg s'.mem q avail = decPosReply cfg s.mem ptr avail := by
  refine guardWindow_moved hp hq ?_
  by_cases hshort : avail.toNat < posSize
  · simp only [hshort, if_true]
  · rw [h.windowSeq_eq (by omega)]

end

/-- The reply of a command in a good window is its reply in any other good window of the same
length; for a decode command, when the two windows hold the same bytes (R30). -/
theorem replyOf_movedTo (i : Instr) (q : Addr) {s s' : State} (hcfg : s'.cfg = s.cfg)
    (h : ∀ ptr avail, i.window? = some (ptr, avail) →
      ptr.toNat + avail.toNat ≤ s.cfg.top ∧ q.toNat + avail.toNat ≤ s.cfg.top ∧
      (i.format = .fDec → SameWindowBytes s s' ptr q avail)) :
    replyOf (movedTo q i) s' = replyOf i s := by
  cases i with
  | sizeVarint val => rfl
  | sizeVarlong val => rfl
  | encVarint val ptr avail | encVarlong val ptr avail | encPos x y z ptr avail
  | encPkt val pay ptr avail =>
    obtain ⟨hp, hq, -⟩ := h ptr avail rfl
    simp only [movedTo, replyOf, hcfg]
    exact guardWindow_moved hp hq rfl
  | decVarint ptr avail | decVarlong ptr avail =>
    obtain ⟨hp, hq, hbytes⟩ := h ptr avail rfl
    simp only [movedTo, replyOf, hcfg]
    refine guardWindow_moved hp hq ?_
    rw [(hbytes rfl).windowInt_eq]
  | decPos ptr avail =>
    obtain ⟨hp, hq, hbytes⟩ := h ptr avail rfl
    simp only [movedTo, replyOf, hcfg]
    exact decPosReply_moved hp hq (hbytes rfl)
  | decPkt ptr avail =>
    obtain ⟨hp, hq, hbytes⟩ := h ptr avail rfl
    simp only [movedTo, replyOf, hcfg]
    exact decPktReply_moved hp hq (hbytes rfl)

/-! ## What a command may store -/

/-- A command stores no more bytes than its window holds (R40). -/
theorem replyOf_stores_length_le {i : Instr} {ptr : Addr} {avail : Count} (s : State)
    (hw : i.window? = some (ptr, avail)) : (replyOf i s).stores.length ≤ avail.toNat := by
  rcases replyOf_stores i s with h | ⟨ptr', avail', hw', -, -, hle⟩
  · simp [h]
  · obtain ⟨rfl, rfl⟩ : ptr' = ptr ∧ avail' = avail := by simpa [hw'] using hw
    exact hle

/-- A reply without stores still has none behind the window test. -/
theorem guardWindow_stores_eq_nil (cfg : Config) (ptr : Addr) (avail : Count) {r : Reply}
    (h : r.stores = []) : (guardWindow cfg ptr avail r).stores = [] := by
  unfold guardWindow
  split
  · exact h
  · rfl

/-- The decode and size commands store nothing (R27). -/
theorem replyOf_stores_eq_nil {i : Instr} (s : State) (h : i.format = .fDec ∨ i.format = .fSize) :
    (replyOf i s).stores = [] := by
  cases i with
  | encVarint val ptr avail | encVarlong val ptr avail | encPos x y z ptr avail
  | encPkt val pay ptr avail => simp [Instr.format] at h
  | sizeVarint val => rfl
  | sizeVarlong val => rfl
  | decVarint ptr avail | decVarlong ptr avail | decPos ptr avail =>
    refine guardWindow_stores_eq_nil _ _ _ ?_
    split <;> rfl
  | decPkt ptr avail =>
    refine guardWindow_stores_eq_nil _ _ _ ?_
    split
    · rfl
    · split
      · rfl
      · split
        · rfl
        · exact pktBodyReply_stores _ _

/-! ## The size commands -/

/-- `SIZE_VARINT` answers the size of its operand and stores nothing (R84). -/
theorem replyOf_sizeVarint (val : Word64) (s : State) :
    replyOf (.sizeVarint val) s = answer (okRsp (intSize (operand32 val))) := rfl

/-- `SIZE_VARLONG` answers the size of its operand and stores nothing (R85). -/
theorem replyOf_sizeVarlong (val : Word64) (s : State) :
    replyOf (.sizeVarlong val) s = answer (okRsp (intSize (operand64 val))) := rfl

/-! ## The obligations -/

/-- Settles O25: both commands complete with the one reply that `replyOf_movedTo` gives. -/
theorem answerDependsOnlyOnTheWindow : Obligations.AnswerDependsOnlyOnTheWindow := by
  intro i q s s' hcfg h
  obtain ⟨t, ht, heff⟩ := exec_effect i s
  obtain ⟨t', ht', heff'⟩ := exec_effect (movedTo q i) s'
  rw [replyOf_movedTo i q hcfg h] at heff'
  exact ⟨t, t', _, _, ht, ht', heff, heff', replyOf_stores_eq_nil s,
    fun _ _ => replyOf_stores_length_le s⟩

/-- Settles O28: the reply of a size command does not mention the state. -/
theorem sizeCommandsAreIdempotent : Obligations.SizeCommandsAreIdempotent := by
  intro val s s'
  exact ⟨⟨_, exec_answered (replyOf_sizeVarint val s), exec_answered (replyOf_sizeVarint val s')⟩,
    ⟨_, exec_answered (replyOf_sizeVarlong val s), exec_answered (replyOf_sizeVarlong val s')⟩⟩

end Sys2Proof.Machine

/-! PROOFS. Which records are answered with `BadCommand` (spec/20_memory.md R42, spec/30_encoding.md
R66, spec/60_exceptions.md R153): those without a command and those whose window is bad, because
behind the window test no command answers so. -/

namespace Sys2Proof.Machine

open Sys2Proof.Safety

/-! ## The statuses behind the window test -/

/-- An encoder with its encoding at hand answers `OK` or `BufferTooSmall` (R154, R155). -/
theorem storeEncoding_status (avail : Nat) (e : List Byte) :
    (storeEncoding avail e).rsp.status = .ok ∨
      (storeEncoding avail e).rsp.status = .bufferTooSmall := by
  by_cases h : avail < e.length
  · exact Or.inr (by rw [storeEncoding_short h]; rfl)
  · exact Or.inl (by rw [storeEncoding_room (Nat.not_lt.1 h)]; rfl)

/-- The integer decoder has two errors (R101). -/
theorem decodeInt_err_status {w c : Nat} {st : Status} {bs : List Byte}
    (h : decodeInt w bs = .err st c) : st = .bufferTooSmall ∨ st = .valueTooLarge := by
  rcases decodeInt_cases w bs with ⟨v, n, hd, -⟩ | ⟨hd, -⟩ | ⟨hd, -⟩ <;> rw [hd] at h <;> cases h
  · exact Or.inl rfl
  · exact Or.inr rfl

/-- A complete frame is answered with `OK`, or with `ValueTooLarge` for its opcode (R136). -/
theorem pktBodyReply_status (n : Nat) (body : List Byte) :
    (pktBodyReply n body).rsp.status = .ok ∨
      (pktBodyReply n body).rsp.status = .valueTooLarge := by
  unfold pktBodyReply
  split
  · exact Or.inl rfl
  · exact Or.inr rfl
  · exact Or.inr rfl

/-! ## `BadCommand` needs a bad window -/

theorem storeEncoding_ne_badCommand (avail : Nat) (e : List Byte) :
    (storeEncoding avail e).rsp.status ≠ .badCommand := by
  rcases storeEncoding_status avail e with h | h <;> simp [h]

/-- Passing on an error of the integer decoder is no `BadCommand`. -/
theorem fail_decodeInt_ne_badCommand {w c : Nat} {st : Status} {bs : List Byte}
    (h : decodeInt w bs = .err st c) : (fail st c).rsp.status ≠ .badCommand := by
  rcases decodeInt_err_status h with rfl | rfl <;> simp [statusRsp]

theorem pktBodyReply_ne_badCommand (n : Nat) (body : List Byte) :
    (pktBodyReply n body).rsp.status ≠ .badCommand := by
  rcases pktBodyReply_status n body with h | h <;> simp [h]

/-- A window test that is passed adds no `BadCommand` (R42). -/
theorem guardWindow_ne_badCommand {cfg : Config} {ptr : Addr} {avail : Count} {r : Reply}
    (hfit : ptr.toNat + avail.toNat ≤ cfg.top) (hr : r.rsp.status ≠ .badCommand) :
    (guardWindow cfg ptr avail r).rsp.status ≠ .badCommand := by
  rwa [guardWindow_valid hfit]

/-- The command has a window, and it runs past the top of the address space (R42). -/
def HasBadWindow (cfg : Config) (i : Instr) : Prop :=
  ∃ ptr avail, i.window? = some (ptr, avail) ∧ cfg.top < ptr.toNat + avail.toNat

theorem window_fits_of_not_hasBadWindow {cfg : Config} {i : Instr} (h : ¬ HasBadWindow cfg i)
    {ptr : Addr} {avail : Count} (hw : i.window? = some (ptr, avail)) :
    ptr.toNat + avail.toNat ≤ cfg.top :=
  Nat.not_lt.1 fun hlt => h ⟨ptr, avail, hw, hlt⟩

/-- No command without a bad window is answered with `BadCommand` (R153). -/
theorem replyOf_ne_badCommand {i : Instr} {s : State} (h : ¬ HasBadWindow s.cfg i) :
    (replyOf i s).rsp.status ≠ .badCommand := by
  have hfit := @window_fits_of_not_hasBadWindow _ _ h
  cases i with
  | sizeVarint val | sizeVarlong val => exact Status.noConfusion
  | encVarint val ptr avail | encVarlong val ptr avail | encPos x y z ptr avail =>
    exact guardWindow_ne_badCommand (hfit rfl) (storeEncoding_ne_badCommand _ _)
  | encPkt val pay ptr avail =>
    refine guardWindow_ne_badCommand (hfit rfl) ?_
    split
    · exact Status.noConfusion
    · exact storeEncoding_ne_badCommand _ _
  | decVarint ptr avail | decVarlong ptr avail =>
    refine guardWindow_ne_badCommand (hfit rfl) ?_
    split
    · exact Status.noConfusion
    · next hd => exact fail_decodeInt_ne_badCommand hd
  | decPos ptr avail =>
    refine guardWindow_ne_badCommand (hfit rfl) ?_
    split <;> exact Status.noConfusion
  | decPkt ptr avail =>
    refine guardWindow_ne_badCommand (hfit rfl) ?_
    split
    · next hd => exact fail_decodeInt_ne_badCommand hd
    · split
      · exact Status.noConfusion
      · split
        · exact Status.noConfusion
        · exact pktBodyReply_ne_badCommand _ _

/-! ## Malformed records, by what they decode to -/

/-- A record that decodes to a command is malformed exactly by its window (R61, R66). -/
theorem malformed_iff_hasBadWindow {cfg : Config} {c : Cmd} {i : Instr} (hd : decode c = .ok i) :
    Malformed cfg c ↔ HasBadWindow cfg i := by
  rcases decode_cases c with ⟨hop, hc⟩ | ⟨hop, hc⟩ | ⟨hop, hc⟩ | ⟨hop, hc⟩ | ⟨hop, hc⟩ | ⟨hop, hc⟩ |
    ⟨hop, hc⟩ | ⟨hop, hc⟩ | ⟨hop, hc⟩ | ⟨hop, hc⟩ | ⟨-, hc⟩ <;> rw [hc] at hd <;> cases hd
  all_goals simp [Malformed, HasBadWindow, hop, Instr.window?, Config.top]

/-- A record without a command has one of the six reserved codes (R61). -/
theorem malformed_of_decode_error {cfg : Config} {c : Cmd} {e : DecodeError}
    (hd : decode c = .error e) : Malformed cfg c := by
  rcases decode_cases c with ⟨-, hc⟩ | ⟨-, hc⟩ | ⟨-, hc⟩ | ⟨-, hc⟩ | ⟨-, hc⟩ | ⟨-, hc⟩ | ⟨-, hc⟩ |
    ⟨-, hc⟩ | ⟨-, hc⟩ | ⟨-, hc⟩ | ⟨hop, hc⟩ <;> rw [hc] at hd <;> cases hd
  exact Or.inl hop

/-! ## The obligation -/

/-- Settles O4, by what the record decodes to: a command is answered with `BadCommand` exactly for a
bad window, a reserved code always. -/
theorem malformedCommandAnswersBadCommand : Obligations.MalformedCommandAnswersBadCommand := by
  intro s c rest h
  rw [step_input h]
  rcases present_cases c (s.setInputs rest) with ⟨i, hd, hp⟩ | ⟨op, hd, hp⟩
  · rw [malformed_iff_hasBadWindow hd]
    refine ⟨fun ⟨ptr, avail, hw, htop⟩ => ?_,
      fun hgood => ⟨_, _, hp, rfl, replyOf_ne_badCommand hgood⟩⟩
    rw [replyOf_badWindow (s := s.setInputs rest) hw htop, complete_of_no_stores _ _ _ rfl] at hp
    exact hp
  · exact ⟨fun _ => hp, fun hn => absurd (malformed_of_decode_error hd) hn⟩

end Sys2Proof.Machine

/-! PROOFS. Which fields of a record its command depends on (spec/30_encoding.md R62, R65): the code
fixes the format, and with the code only the fields of that format reach the command. -/

namespace Sys2Proof

/-- No format drops the code. -/
@[simp] theorem keep_op (f : Format) (c : Cmd) : (c.keep f).op = c.op := by
  cases f <;> rfl

/-- The code alone decides whether a record has a command, and of which format (R61, R62). -/
theorem exists_decode_of_op_eq {c c' : Cmd} {i : Instr} (hd : decode c = .ok i)
    (hop : c'.op = c.op) : ∃ i', decode c' = .ok i' ∧ i'.format = i.format := by
  rcases decode_cases c with ⟨h, hc⟩ | ⟨h, hc⟩ | ⟨h, hc⟩ | ⟨h, hc⟩ | ⟨h, hc⟩ | ⟨h, hc⟩ |
    ⟨h, hc⟩ | ⟨h, hc⟩ | ⟨h, hc⟩ | ⟨h, hc⟩ | ⟨-, hc⟩ <;> rw [hc] at hd <;> cases hd
  all_goals simp [decode, hop, h, Instr.format]

/-- Clearing the fields that its format does not list leaves a record's command as it is (R65). -/
theorem decode_keep {c : Cmd} {i : Instr} (hd : decode c = .ok i) :
    decode (c.keep i.format) = .ok i := by
  rcases decode_cases c with ⟨h, hc⟩ | ⟨h, hc⟩ | ⟨h, hc⟩ | ⟨h, hc⟩ | ⟨h, hc⟩ | ⟨h, hc⟩ |
    ⟨h, hc⟩ | ⟨h, hc⟩ | ⟨h, hc⟩ | ⟨h, hc⟩ | ⟨-, hc⟩ <;> rw [hc] at hd <;> cases hd
  all_goals simp [decode, h, Instr.format, Cmd.keep, Cmd.blank]

/-- Records that agree on the code and on the fields of the format have the same command (R65). -/
theorem decode_eq_of_keep_eq {c c' : Cmd} {i : Instr} (hd : decode c = .ok i)
    (hk : c'.keep i.format = c.keep i.format) : decode c' = decode c := by
  have hop : c'.op = c.op := by simpa using congrArg Cmd.op hk
  obtain ⟨i', hd', hf⟩ := exists_decode_of_op_eq hd hop
  calc decode c' = .ok i' := hd'
    _ = decode (c'.keep i'.format) := (decode_keep hd').symm
    _ = decode (c.keep i.format) := by rw [hf, hk]
    _ = .ok i := decode_keep hd
    _ = decode c := hd.symm

end Sys2Proof

namespace Sys2Proof.Machine

/-- Of a presented record the block sees nothing but what it decodes to (R61, R66). -/
theorem present_eq_of_decode_eq {c c' : Cmd} (h : decode c' = decode c) (s : State) :
    present c' s = present c s := by
  simp only [present, h]

/-- Settles O2: the two records have one command, and a step of a presented record depends on its
command only. -/
theorem ignoredFieldsHaveNoInfluence : Obligations.IgnoredFieldsHaveNoInfluence := by
  intro c c' i s rest hd hk
  rw [step_input rfl, step_input rfl]
  exact present_eq_of_decode_eq (decode_eq_of_keep_eq hd hk) (s.setInputs rest)

end Sys2Proof.Machine

/-! PROOFS. The size and encode commands of the varint unit (spec/40_varint_encoder.md R84 to R87).
Both widths answer with the one size and encoding of a `w`-bit operand, so each kind of command is
treated once for every width. -/

namespace Sys2Proof.Machine

open Sys2Proof.Safety

/-! ## Commands with a window, and encoders -/

theorem baseOf_of_window {i : Instr} {ptr : Addr} {avail : Count}
    (hw : i.window? = some (ptr, avail)) : baseOf i = ptr.toNat := by
  simp [baseOf, hw]

/-- Every command with a window rejects a bad one (R42, R66). -/
theorem rejectsBadWindow_of_window {i : Instr} {ptr : Addr} {avail : Count} (s : State)
    (hw : i.window? = some (ptr, avail)) : RejectsBadWindow i s ptr avail :=
  fun hbad => exec_answered (replyOf_badWindow hw hbad)

/-- A command whose reply is the encoder's store of `e` leaves `e`, or what fits of it, in its window
(R154, R155). -/
theorem storesEncoding_of_replyOf {i : Instr} {s : State} {ptr : Addr} {avail : Count}
    {e : List Byte} (hw : i.window? = some (ptr, avail))
    (hr : replyOf i s = storeEncoding avail.toNat e) : StoresEncoding i s ptr avail e := by
  obtain ⟨t, ht, heff⟩ := exec_effect i s
  rw [baseOf_of_window hw, hr] at heff
  refine ⟨t, ht, fun hroom => ?_, fun hshort => ?_⟩
  · rw [storeEncoding_room hroom] at heff
    exact heff
  · rw [storeEncoding_short hshort] at heff
    exact heff

/-! ## The replies of the two encode commands -/

theorem replyOf_encVarint {s : State} {ptr : Addr} {avail : Count} (val : Word64)
    (hfit : ptr.toNat + avail.toNat ≤ s.cfg.top) :
    replyOf (.encVarint val ptr avail) s =
      storeEncoding avail.toNat (intBytes (operand32 val)) :=
  guardWindow_valid hfit _

theorem replyOf_encVarlong {s : State} {ptr : Addr} {avail : Count} (val : Word64)
    (hfit : ptr.toNat + avail.toNat ≤ s.cfg.top) :
    replyOf (.encVarlong val ptr avail) s =
      storeEncoding avail.toNat (intBytes (operand64 val)) :=
  guardWindow_valid hfit _

/-! ## An operand of any width -/

section
variable {w : Nat} {v : BitVec w} {i : Instr} {s : State}

/-- A command that answers `intSize v` answers the size of `v`, within `MAXB(w)` (R81, R84, R85). -/
theorem exists_size_answered (hw : 1 ≤ w) (hr : replyOf i s = answer (okRsp (intSize v))) :
    ∃ n, IsSize v.toNat n ∧ n ≤ maxBytes w ∧ exec i s = .next (Answered s (bare .ok n)) :=
  ⟨intSize v, isSize_intSize v, intSize_le_maxBytes hw v, exec_answered hr⟩

/-- A command that stores `intBytes v` stores the encoding of `v`, of at most `MAXB(w)` bytes (R82,
R86, R87). -/
theorem exists_encoding_stored {ptr : Addr} {avail : Count} (hw : 1 ≤ w)
    (hwin : i.window? = some (ptr, avail))
    (hr : replyOf i s = storeEncoding avail.toNat (intBytes v)) :
    ∃ n e, IsSize v.toNat n ∧ n ≤ maxBytes w ∧ IsEncoding v.toNat n e ∧
      StoresEncoding i s ptr avail e :=
  ⟨intSize v, intBytes v, isSize_intSize v, intSize_le_maxBytes hw v, isEncoding_intBytes v,
    storesEncoding_of_replyOf hwin hr⟩

end

/-! ## The obligations -/

/-- Settles O12: the operand is the low half of `val`, a 32-bit integer. -/
theorem sizeVarintAnswersTheSize : Obligations.SizeVarintAnswersTheSize := by
  intro c s hop
  refine ⟨by simp [decode, hop], ?_⟩
  rw [← operand32_toNat]
  exact exists_size_answered (by decide) (replyOf_sizeVarint c.val s)

/-- Settles O13: the operand is the whole of `val`. -/
theorem sizeVarlongAnswersTheSize : Obligations.SizeVarlongAnswersTheSize := by
  intro c s hop
  exact ⟨by simp [decode, hop], exists_size_answered (by decide) (replyOf_sizeVarlong c.val s)⟩

/-- Settles O14: a bad window is rejected, and in a good one the command stores the encoding of the
low half of `val`. -/
theorem encVarintStoresTheEncoding : Obligations.EncVarintStoresTheEncoding := by
  intro c s hop
  refine ⟨by simp [decode, hop], rejectsBadWindow_of_window s rfl, fun hfit => ?_⟩
  rw [← operand32_toNat]
  exact exists_encoding_stored (by decide) rfl (replyOf_encVarint c.val hfit)

/-- Settles O15: a bad window is rejected, and in a good one the command stores the encoding of the
whole of `val`. -/
theorem encVarlongStoresTheEncoding : Obligations.EncVarlongStoresTheEncoding := by
  intro c s hop
  exact ⟨by simp [decode, hop], rejectsBadWindow_of_window s rfl,
    fun hfit => exists_encoding_stored (by decide) rfl (replyOf_encVarlong c.val hfit)⟩

end Sys2Proof.Machine

/-! PROOFS. The integer decoder (spec/41_varint_decoder.md R101 to R106): its two commands, its
inverse relation to the encoder, and which bytes its answer depends on. Everything is said for every
width first and then read at the two widths of the block. -/

namespace Sys2Proof.Machine

open Sys2Proof.Safety

/-! ## The replies of the two decode commands -/

/-- The answer that passes on a result of the decoder, its value put into `rsp.val` by `result`. -/
def decodedReply {w : Nat} (result : BitVec w → Word64) : IntResult w → Reply
  | .ok v n => answer { okRsp n with val := result v }
  | .err st c => fail st c

section
variable {s : State} {ptr : Addr} {avail : Count}

theorem replyOf_decVarint (hfit : ptr.toNat + avail.toNat ≤ s.cfg.top) :
    replyOf (.decVarint ptr avail) s =
      decodedReply result32 (decodeInt 32 (windowInt 32 s.mem ptr avail)) := by
  refine (guardWindow_valid hfit _).trans ?_
  cases decodeInt 32 (windowInt 32 s.mem ptr avail) <;> rfl

theorem replyOf_decVarlong (hfit : ptr.toNat + avail.toNat ≤ s.cfg.top) :
    replyOf (.decVarlong ptr avail) s =
      decodedReply id (decodeInt 64 (windowInt 64 s.mem ptr avail)) := by
  refine (guardWindow_valid hfit _).trans ?_
  cases decodeInt 64 (windowInt 64 s.mem ptr avail) <;> rfl

/-- A command that passes on the decode of its window answers as R103 and R104 say. -/
theorem decodesInt_of_replyOf {w : Nat} {result : BitVec w → Word64} {i : Instr}
    (hr : replyOf i s = decodedReply result (decodeInt w (windowInt w s.mem ptr avail))) :
    DecodesInt i s avail (maxBytes w) (windowByte s ptr) fun v => result (BitVec.ofNat w v) := by
  refine ⟨fun n hterm hmax hlen => ?_, fun hshort hcont => ?_, fun hlong hcont => ?_⟩
  · rw [decodeInt_window_ok w hterm hmax hlen] at hr
    exact exec_answered hr
  · rw [decodeInt_window_short w hshort hcont] at hr
    exact exec_answered hr
  · rw [decodeInt_window_long w hlong hcont] at hr
    exact exec_answered hr

end

/-! ## Decoding an encoding -/

/-- A sequence as the function of the index that `Terminates` and `spelled` speak of. -/
theorem getElem?_eq_some_getD (bs : List Byte) :
    ∀ k, k < bs.length → bs[k]? = some (bs.getD k 0) :=
  fun k hk => by simp [hk]

section
variable {w : Nat} {v : BitVec w} {f : Nat → Byte}

/-- Bytes that begin with an encoding end where its size says (R83 (a), R101). -/
theorem terminates_of_intBytes (hf : ∀ k, k < intSize v → (intBytes v)[k]? = some (f k)) :
    Terminates f (intSize v) :=
  terminates_of_isEncoding (intSize_pos v) (isEncoding_intBytes v) hf

/-- And they spell the value, which its size is enough for (R81). -/
theorem ofNat_spelled_of_intBytes (hf : ∀ k, k < intSize v → (intBytes v)[k]? = some (f k)) :
    BitVec.ofNat w (spelled f (intSize v)) = v := by
  obtain ⟨-, hfits, -⟩ := isSize_intSize v
  rw [spelled_of_isEncoding (isEncoding_intBytes v) hf le_rfl, Nat.mod_eq_of_lt hfits,
    BitVec.ofNat_toNat, BitVec.setWidth_eq]

/-- R105 for sequences: what follows an encoding plays no part. -/
theorem decodeInt_intBytes_append (hw : 1 ≤ w) (v : BitVec w) (rest : List Byte) :
    decodeInt w (intBytes v ++ rest) = .ok v (intSize v) := by
  have hbs := getElem?_eq_some_getD (intBytes v ++ rest)
  have hf : ∀ k, k < intSize v → (intBytes v)[k]? = some ((intBytes v ++ rest).getD k 0) := by
    intro k hk
    rw [← List.getElem?_append_left (l₂ := rest) (by simpa using hk)]
    exact hbs k (by simp; omega)
  rw [decodeInt_ok w hbs (terminates_of_intBytes hf) (intSize_le_maxBytes hw v) (by simp),
    ofNat_spelled_of_intBytes hf]

/-- R105 for windows: a window that begins with an encoding decodes to its value. -/
theorem decodeInt_window_intBytes {m : Memory} {ptr : Addr} {avail : Count} (hw : 1 ≤ w)
    (hlen : intSize v ≤ avail.toNat)
    (hm : ∀ k, k < intSize v → (intBytes v)[k]? = some (m.read (ptr.toNat + k))) :
    decodeInt w (windowInt w m ptr avail) = .ok v (intSize v) := by
  rw [decodeInt_window_ok w (terminates_of_intBytes hm) (intSize_le_maxBytes hw v) hlen,
    ofNat_spelled_of_intBytes hm]

end

/-! ## Encoding and then decoding, as commands -/

/-- An encoder that answers `OK` has counted its encoding and written all of it (R86, R87). -/
theorem encoding_written_of_ok {i : Instr} {s t : State} {r : Rsp} {ptr : Addr} {avail : Count}
    {e : List Byte} (hwin : i.window? = some (ptr, avail))
    (hr : ptr.toNat + avail.toNat ≤ s.cfg.top → replyOf i s = storeEncoding avail.toNat e)
    (hexec : exec i s = .next t) (hrsp : t.responses = s.responses ++ [r]) (hok : r.status = .ok) :
    r.consumed.toNat = e.length ∧
      ∀ k, k < e.length → e[k]? = some (t.mem.read (ptr.toNat + k)) := by
  obtain rfl := exec_response hexec hrsp
  have hfit : ptr.toNat + avail.toNat ≤ s.cfg.top := by
    by_contra hbad
    rw [replyOf_badWindow hwin (Nat.not_le.1 hbad)] at hok
    exact Status.noConfusion hok
  have hroom : e.length ≤ avail.toNat := by
    by_contra hshort
    rw [hr hfit, storeEncoding_short (Nat.not_le.1 hshort)] at hok
    exact Status.noConfusion hok
  obtain ⟨t', ht', -, hinside, -⟩ := exec_effect i s
  obtain rfl := Host.Outcome.next.inj (hexec.symm.trans ht')
  rw [hr hfit, storeEncoding_room hroom, baseOf_of_window hwin] at hinside
  rw [hr hfit, storeEncoding_room hroom]
  exact ⟨(BitVec.toNat_ofNat _ _).trans (Nat.mod_eq_of_lt (hroom.trans_lt avail.isLt)), hinside⟩

/-- No command changes the parameters (R25). -/
theorem exec_cfg {i : Instr} {s t : State} (h : exec i s = .next t) : t.cfg = s.cfg := by
  rw [exec_eq_complete] at h
  obtain rfl := Host.Outcome.next.inj h
  rfl

/-- R105 for commands, at any width: an encoder `i` of `v` has answered `OK`, and `j` decodes a
window at the same address that is long enough. -/
theorem exec_decode_of_encode_ok {w : Nat} {v : BitVec w} {result : BitVec w → Word64}
    {i j : Instr} {s t : State} {r : Rsp} {ptr : Addr} {avail avail' : Count} (hw : 1 ≤ w)
    (hwin : i.window? = some (ptr, avail))
    (henc : ptr.toNat + avail.toNat ≤ s.cfg.top →
      replyOf i s = storeEncoding avail.toNat (intBytes v))
    (hdec : ptr.toNat + avail'.toNat ≤ t.cfg.top →
      replyOf j t = decodedReply result (decodeInt w (windowInt w t.mem ptr avail')))
    (hexec : exec i s = .next t) (hrsp : t.responses = s.responses ++ [r]) (hok : r.status = .ok)
    (hlen : r.consumed.toNat ≤ avail'.toNat) (hfit : ptr.toNat + avail'.toNat ≤ s.cfg.top) :
    exec j t = .next (Answered t { bare .ok r.consumed.toNat with val := result v }) := by
  obtain ⟨hcount, hbytes⟩ := encoding_written_of_ok hwin henc hexec hrsp hok
  rw [intBytes_length] at hcount hbytes
  have hreply := hdec (by rwa [exec_cfg hexec])
  rw [decodeInt_window_intBytes hw (hcount ▸ hlen) hbytes] at hreply
  rw [hcount]
  exact exec_answered hreply

theorem operand32_eq_setWidth (val : Word64) : operand32 val = val.setWidth 32 := by
  apply BitVec.eq_of_toNat_eq
  rw [operand32_toNat, BitVec.toNat_setWidth]

/-! ## Which bytes a decode depends on -/

/-- A loop that ends with a value depends on the bytes it took, and on no others (R106). -/
theorem decodeIntFrom_ok_of_take_eq {w left i n : Nat} {acc v : BitVec w} {bs : List Byte}
    (h : decodeIntFrom w left i acc bs = .ok v n) :
    ∃ m, n = i + m ∧ ∀ bs' : List Byte, bs'.take m = bs.take m →
      decodeIntFrom w left i acc bs' = .ok v n := by
  induction left generalizing i acc bs with
  | zero => simp [decodeIntFrom] at h
  | succ left ih =>
    cases bs with
    | nil => simp [decodeIntFrom] at h
    | cons b bs =>
      by_cases hb : b.getLsbD 7 = true
      · simp only [decodeIntFrom, if_pos hb] at h
        obtain ⟨m, hn, hsame⟩ := ih h
        refine ⟨m + 1, by omega, fun bs' htake => ?_⟩
        cases bs' with
        | nil => simp at htake
        | cons b' bs' =>
          obtain ⟨rfl, htail⟩ : b' = b ∧ bs'.take m = bs.take m := by simpa using htake
          simpa only [decodeIntFrom, if_pos hb] using hsame bs' htail
      · simp only [decodeIntFrom, if_neg hb, IntResult.ok.injEq] at h
        obtain ⟨rfl, rfl⟩ := h
        refine ⟨1, rfl, fun bs' htake => ?_⟩
        cases bs' with
        | nil => simp at htake
        | cons b' bs' =>
          obtain rfl : b' = b := by simpa using htake
          simp only [decodeIntFrom, if_neg hb]

theorem decodeInt_ok_of_take_eq {w n : Nat} {v : BitVec w} {bs bs' : List Byte}
    (h : decodeInt w bs = .ok v n) (htake : bs'.take n = bs.take n) :
    decodeInt w bs' = .ok v n := by
  obtain ⟨m, hn, hsame⟩ := decodeIntFrom_ok_of_take_eq h
  obtain rfl : n = m := by omega
  exact hsame bs' htake

/-- Only a sequence of continuing bytes that is shorter than the loop may take runs out: the
converse of `decodeIntFrom_short`. -/
theorem continues_of_decodeIntFrom_short {w left i c : Nat} {acc : BitVec w} {bs : List Byte}
    (h : decodeIntFrom w left i acc bs = .err .bufferTooSmall c) :
    bs.length < left ∧ ∀ b ∈ bs, continues b := by
  induction left generalizing i acc bs with
  | zero => simp [decodeIntFrom] at h
  | succ left ih =>
    cases bs with
    | nil => simp
    | cons b bs =>
      by_cases hb : b.getLsbD 7 = true
      · simp only [decodeIntFrom, if_pos hb] at h
        obtain ⟨hlen, hcont⟩ := ih h
        exact ⟨Nat.succ_lt_succ hlen, List.forall_mem_cons.2 ⟨(continues_iff b).2 hb, hcont⟩⟩
      · simp only [decodeIntFrom, if_neg hb, reduceCtorEq] at h

section
variable {bs : List Byte}

/-- Continuing bytes and one that does not continue hold an integer (R68 (a)). -/
theorem terminates_append_singleton {b : Byte} (hcont : ∀ x ∈ bs, continues x)
    (hb : ¬ continues b) : Terminates (fun k => (bs ++ [b]).getD k 0) (bs.length + 1) := by
  refine ⟨Nat.le_add_left 1 _, fun i hi => ?_, by simpa using hb⟩
  have hlt : i < bs.length := by omega
  simpa [List.getElem?_append_left hlt, hlt] using hcont _ (List.getElem_mem hlt)

/-- One byte without a continuation bit completes a sequence that was too short. -/
theorem exists_decodeInt_append_ok {w : Nat} (hlen : bs.length < maxBytes w)
    (hcont : ∀ b ∈ bs, continues b) : ∃ v n, decodeInt w (bs ++ [0]) = .ok v n :=
  ⟨_, _, decodeInt_ok w (getElem?_eq_some_getD (bs ++ [0]))
    (terminates_append_singleton hcont (by decide)) hlen (by simp)⟩

/-- Continuing bytes without end exceed the greatest length. -/
theorem decodeInt_append_replicate (w : Nat) (hcont : ∀ b ∈ bs, continues b) :
    decodeInt w (bs ++ List.replicate (maxBytes w) 0x80) =
      .err .valueTooLarge (maxBytes w) := by
  refine decodeInt_long w (by simp) fun b hb => ?_
  rcases List.mem_append.1 (List.mem_of_mem_take hb) with hmem | hmem
  · exact hcont b hmem
  · rw [List.eq_of_mem_replicate hmem]
    decide

end

/-! ## The obligations -/

/-- Settles O35: the sequences and the commands by the encoding's size and value, the failing
converse by a zero of two bytes, `80 00`. -/
theorem integerRoundTrip : Obligations.IntegerRoundTrip := by
  refine ⟨decodeInt_intBytes_append (by decide), decodeInt_intBytes_append (by decide), ?_, ?_,
    ⟨[0x80, 0x00], 0, by decide, by decide⟩, ⟨[0x80, 0x00], 0, by decide, by decide⟩⟩
  · intro val ptr avail avail' s t r hexec hrsp hok hlen hfit
    rw [← operand32_eq_setWidth]
    exact exec_decode_of_encode_ok (by decide) rfl (replyOf_encVarint val) replyOf_decVarint
      hexec hrsp hok hlen hfit
  · intro val ptr avail avail' s t r hexec hrsp hok hlen hfit
    exact exec_decode_of_encode_ok (by decide) rfl (replyOf_encVarlong val) replyOf_decVarlong
      hexec hrsp hok hlen hfit

/-- Settles O16: a bad window is rejected, and in a good one the command passes on the 32-bit
decode, sign-extended. -/
theorem decVarintAnswersTheValue : Obligations.DecVarintAnswersTheValue := by
  intro c s hop
  exact ⟨by simp [decode, hop], rejectsBadWindow_of_window s rfl,
    fun hfit => decodesInt_of_replyOf (replyOf_decVarint hfit)⟩

/-- Settles O17: a bad window is rejected, and in a good one the command passes on the 64-bit
decode. -/
theorem decVarlongAnswersTheValue : Obligations.DecVarlongAnswersTheValue := by
  intro c s hop
  exact ⟨by simp [decode, hop], rejectsBadWindow_of_window s rfl,
    fun hfit => decodesInt_of_replyOf (replyOf_decVarlong hfit)⟩

/-- Settles O36: a sequence that was too short holds continuing bytes only, so that a last byte,
nothing, or more continuing bytes lead to the three outcomes. -/
theorem decodePrefixProperty : Obligations.DecodePrefixProperty := by
  intro w bs _
  refine ⟨fun v n h bs' htake => decodeInt_ok_of_take_eq h htake, fun hshort => ?_⟩
  obtain ⟨hlen, hcont⟩ := continues_of_decodeIntFrom_short hshort
  exact ⟨⟨[0], exists_decodeInt_append_ok hlen hcont⟩,
    ⟨[], bs.length, by rwa [List.append_nil]⟩,
    ⟨_, _, decodeInt_append_replicate w hcont⟩⟩

end Sys2Proof.Machine

/-! PROOFS. The Position codec's two commands (spec/42_bit_field_packer.md R115, R116): what each
answers in a good window, and from that what it does to the state. -/

namespace Sys2Proof.Machine

open Sys2Proof.Safety

/-! ## The replies of the two commands in a good window -/

section
variable {s : State} {ptr : Addr} {avail : Count}

theorem replyOf_encPos (x y z : Word32) (hfit : ptr.toNat + avail.toNat ≤ s.cfg.top) :
    replyOf (.encPos x y z ptr avail) s =
      storeEncoding avail.toNat (posBytes (posWord x y z)) :=
  guardWindow_valid hfit _

/-- The bytes `ENC_POS` stores are the Position word, most significant byte first (R114, R118). -/
theorem isBigEndian_posBytes_posWord (x y z : Word32) :
    IsBigEndian (positionWord x y z) (posBytes (posWord x y z)) := by
  rw [← posWord_toNat]
  exact isBigEndian_posBytes _

theorem replyOf_decPos_short (hfit : ptr.toNat + avail.toNat ≤ s.cfg.top)
    (hshort : avail.toNat < 8) :
    replyOf (.decPos ptr avail) s = fail .bufferTooSmall avail.toNat :=
  (guardWindow_valid hfit _).trans (if_pos hshort)

theorem replyOf_decPos_room (hfit : ptr.toNat + avail.toNat ≤ s.cfg.top)
    (hroom : 8 ≤ avail.toNat) :
    replyOf (.decPos ptr avail) s = answer (posRsp (posWordOf (windowSeq s.mem ptr 0 posSize))) :=
  (guardWindow_valid hfit _).trans (if_neg (Nat.not_lt.2 hroom))

end

/-! ## The obligations -/

/-- Settles O18: a bad window is rejected, and in a good one the command stores the bytes of the
Position word as far as there is room. -/
theorem encPosStoresTheWord : Obligations.EncPosStoresTheWord := by
  intro c s hop
  exact ⟨by simp [decode, hop], rejectsBadWindow_of_window s rfl, fun hfit =>
    ⟨_, isBigEndian_posBytes_posWord c.x c.y c.z,
      storesEncoding_of_replyOf rfl (replyOf_encPos c.x c.y c.z hfit)⟩⟩

/-- Settles O19: a bad window is rejected, and a good one is split at 8 bytes; with room, the fields
are those of the word that the first 8 bytes of the window spell. -/
theorem decPosAnswersTheFields : Obligations.DecPosAnswersTheFields := by
  intro c s hop
  refine ⟨by simp [decode, hop], rejectsBadWindow_of_window s rfl, fun hfit =>
    ⟨fun hshort => exec_answered (replyOf_decPos_short hfit hshort), fun hroom => ?_⟩⟩
  rw [exec_answered (replyOf_decPos_room hfit hroom), posRsp_eq, posWordOf_window]

end Sys2Proof.Machine

/-! PROOFS. The Packet framer's two commands (spec/43_packet_framer.md R130 to R136): the frame that
`ENC_PKT` stores is a length, an opcode and the payload, and `DEC_PKT` takes a frame apart in
the order of R135, its opcode confined to the body of the frame. -/

namespace Sys2Proof.Machine

open Sys2Proof.Safety

/-! ## The encoder -/

section
variable {s : State} {ptr : Addr} {avail : Count} {val : Word64} {pay : List Byte}

/-- A length that a frame can carry: `PktBytes` is the frame of R130. -/
theorem isFrame_pktBytes {o : Word32} (hlen : pktLength o pay ≤ pktMaxLen) :
    IsFrame o.toNat pay (pktBytes o pay) := by
  have hword : (BitVec.ofNat 32 (pktLength o pay)).toNat = pktLength o pay :=
    Nat.mod_eq_of_lt (hlen.trans_lt (by decide))
  have hsize := isSize_intSize (BitVec.ofNat 32 (pktLength o pay))
  have hlength := isEncoding_intBytes (BitVec.ofNat 32 (pktLength o pay))
  rw [hword] at hsize hlength
  exact ⟨_, _, _, _, isSize_intSize o, isEncoding_intBytes o, hsize, hlength, rfl⟩

/-- The length is checked before the room (R132, R156): `avail` plays no part. -/
theorem replyOf_encPkt_tooLong (hfit : ptr.toNat + avail.toNat ≤ s.cfg.top)
    (hlong : pktMaxLen < pktLength (operand32 val) pay) :
    replyOf (.encPkt val pay ptr avail) s = fail .valueTooLarge 0 :=
  (guardWindow_valid hfit _).trans (if_pos hlong)

theorem replyOf_encPkt (hfit : ptr.toNat + avail.toNat ≤ s.cfg.top)
    (hlen : pktLength (operand32 val) pay ≤ pktMaxLen) :
    replyOf (.encPkt val pay ptr avail) s =
      storeEncoding avail.toNat (pktBytes (operand32 val) pay) :=
  (guardWindow_valid hfit _).trans (if_neg (Nat.not_lt.2 hlen))

end

/-! ## The body of a frame: step 4 of R135 -/

section
variable {n : Nat} {body : List Byte} {g : Nat → Byte}
  (hbody : ∀ k, k < body.length → body[k]? = some (g k))
include hbody

/-- An opcode that ends in the body: what is left of the body is the payload. -/
theorem pktBodyReply_ok {m : Nat} (hterm : Terminates g m) (hmax : m ≤ 5)
    (hlen : m ≤ body.length) :
    pktBodyReply n body = answer { okRsp (n + body.length) with
      val := result32 (BitVec.ofNat 32 (spelled g m)), pay := body.drop m } := by
  simp only [pktBodyReply, decodeInt_ok 32 hbody hterm hmax hlen]

/-- An opcode that has no end in the five bytes it may take (R136 (b)). -/
theorem pktBodyReply_opcode_long (hlen : 5 ≤ body.length)
    (hcont : ∀ k, k < 5 → continues (g k)) :
    pktBodyReply n body = fail .valueTooLarge (n + 5) := by
  have htake : (body.take 5).length = 5 := by simpa using hlen
  have hall : ∀ b ∈ body.take 5, continues b := by
    refine all_continue (fun k hk => ?_) (by rwa [htake])
    rw [htake] at hk
    rw [List.getElem?_take_of_lt hk]
    exact hbody k (hk.trans_le hlen)
  simp only [pktBodyReply, decodeInt_long 32 hlen hall, maxBytes_32]

/-- An opcode that is cut off by the end of the frame (R136 (c)); the body may be empty. -/
theorem pktBodyReply_opcode_cut (hlen : body.length < 5)
    (hcont : ∀ k, k < body.length → continues (g k)) :
    pktBodyReply n body = fail .valueTooLarge (n + body.length) := by
  simp only [pktBodyReply, decodeInt_short 32 hlen (all_continue hbody hcont)]

end

/-! ## The decoder -/

section
variable {s : State} {ptr : Addr} {avail : Count}

/-- Step 1 of R135: an error of the length field is the answer. -/
theorem replyOf_decPkt_length_err {st : Status} {c : Nat}
    (hfit : ptr.toNat + avail.toNat ≤ s.cfg.top)
    (hlength : decodeInt 32 (windowInt 32 s.mem ptr avail) = .err st c) :
    replyOf (.decPkt ptr avail) s = fail st c :=
  (guardWindow_valid hfit _).trans (by rw [hlength])

section
variable {l : Word32} {n : Nat} (hfit : ptr.toNat + avail.toNat ≤ s.cfg.top)
  (hlength : decodeInt 32 (windowInt 32 s.mem ptr avail) = .ok l n)
include hfit hlength

/-- Step 2 of R135: a negative length. -/
theorem replyOf_decPkt_negative (hneg : l.toInt < 0) :
    replyOf (.decPkt ptr avail) s = fail .valueTooLarge n :=
  (guardWindow_valid hfit _).trans (by rw [hlength]; exact if_pos hneg)

/-- Step 3 of R135: a truncated frame. -/
theorem replyOf_decPkt_truncated (hpos : 0 ≤ l.toInt) (hshort : avail.toNat < n + l.toNat) :
    replyOf (.decPkt ptr avail) s = fail .bufferTooSmall avail.toNat :=
  (guardWindow_valid hfit _).trans
    (by rw [hlength]; exact (if_neg (Int.not_lt.2 hpos)).trans (if_pos hshort))

/-- Step 4 of R135: a whole frame is answered from the `L` bytes of its body alone. -/
theorem replyOf_decPkt_body (hpos : 0 ≤ l.toInt) (hroom : n + l.toNat ≤ avail.toNat) :
    replyOf (.decPkt ptr avail) s = pktBodyReply n (windowSeq s.mem ptr n l.toNat) :=
  (guardWindow_valid hfit _).trans
    (by rw [hlength]; exact (if_neg (Int.not_lt.2 hpos)).trans (if_neg (Nat.not_lt.2 hroom)))

/-- Steps 2 to 4 of R135, once the length field has ended after `n` bytes: the body follows it. -/
theorem decodesFrame_of_length :
    DecodesFrame (.decPkt ptr avail) s avail (windowByte s ptr) n l := by
  have hlen : (windowSeq s.mem ptr n l.toNat).length = l.toNat := windowSeq_length ..
  have hbody : ∀ k, k < (windowSeq s.mem ptr n l.toNat).length →
      (windowSeq s.mem ptr n l.toNat)[k]? = some (windowByte s ptr (n + k)) :=
    windowSeq_getElem? s.mem ptr n l.toNat
  refine ⟨fun hneg => exec_answered (replyOf_decPkt_negative hfit hlength hneg),
    fun hpos hshort => exec_answered (replyOf_decPkt_truncated hfit hlength hpos hshort),
    fun hpos hroom hfive hcont => exec_answered ?opcodeLong,
    fun hpos hroom hfive hcont => exec_answered ?opcodeCut,
    fun hpos hroom m hterm hmax hm => ⟨(windowSeq s.mem ptr n l.toNat).drop m, by simp,
      fun k hk => ?payload, exec_answered ?whole⟩⟩
  case opcodeLong =>
    rw [replyOf_decPkt_body hfit hlength hpos hroom]
    exact pktBodyReply_opcode_long hbody (by rwa [hlen]) hcont
  case opcodeCut =>
    rw [replyOf_decPkt_body hfit hlength hpos hroom,
      pktBodyReply_opcode_cut hbody (by rwa [hlen]) (by rwa [hlen]), hlen]
    rfl
  case payload =>
    rw [List.length_drop] at hk
    rw [List.getElem?_drop]
    exact hbody (m + k) (by omega)
  case whole =>
    rw [replyOf_decPkt_body hfit hlength hpos hroom,
      pktBodyReply_ok hbody hterm hmax (by rwa [hlen]), hlen]
    rfl

end
end

/-! ## The obligations -/

/-- Settles O20: a bad window is rejected; in a good one the length decides between `ValueTooLarge`
and the store of the frame. -/
theorem encPktStoresTheFrame : Obligations.EncPktStoresTheFrame := by
  intro c s hop
  refine ⟨by simp [decode, hop], rejectsBadWindow_of_window s rfl, fun hfit => ?_⟩
  rw [← operand32_toNat]
  exact ⟨intSize (operand32 c.val), isSize_intSize _,
    fun hlong => exec_answered (replyOf_encPkt_tooLong hfit hlong),
    fun hlen => ⟨_, isFrame_pktBytes hlen,
      storesEncoding_of_replyOf rfl (replyOf_encPkt hfit hlen)⟩⟩

/-- Settles O21: a bad window is rejected; in a good one the length field fails or ends; once it has
ended the frame is taken apart. -/
theorem decPktAnswersTheFrame : Obligations.DecPktAnswersTheFrame := by
  intro c s hop
  refine ⟨by simp [decode, hop], rejectsBadWindow_of_window s rfl, fun hfit =>
    ⟨fun hshort hcont => ?_, fun hlong hcont => ?_, fun n hterm hmax hlen => ?_⟩⟩
  · exact exec_answered (replyOf_decPkt_length_err hfit (decodeInt_window_short 32 hshort hcont))
  · exact exec_answered (replyOf_decPkt_length_err hfit (decodeInt_window_long 32 hlong hcont))
  · exact decodesFrame_of_length hfit (decodeInt_window_ok 32 hterm hmax hlen)

end Sys2Proof.Machine

/-! PROOFS. Which command answers which status (spec/60_exceptions.md R151, R152): the table of R151
as a predicate of its own, and every answer of every command read off that table. -/

namespace Sys2Proof.Machine

/-! ## The table of R151 -/

/-- The commands with an integer to decode or a frame length to check: those that can find a value
too large (R151). -/
inductive ChecksAValue : Instr → Prop
  | decVarint (ptr : Addr) (avail : Count) : ChecksAValue (.decVarint ptr avail)
  | decVarlong (ptr : Addr) (avail : Count) : ChecksAValue (.decVarlong ptr avail)
  | encPkt (val : Word64) (pay : List Byte) (ptr : Addr) (avail : Count) :
      ChecksAValue (.encPkt val pay ptr avail)
  | decPkt (ptr : Addr) (avail : Count) : ChecksAValue (.decPkt ptr avail)

theorem ChecksAValue.exists_eq {i : Instr} (h : ChecksAValue i) :
    ∃ val pay ptr avail, i = .decVarint ptr avail ∨ i = .decVarlong ptr avail ∨
      i = .encPkt val pay ptr avail ∨ i = .decPkt ptr avail := by
  cases h with
  | decVarint ptr avail => exact ⟨0, [], ptr, avail, .inl rfl⟩
  | decVarlong ptr avail => exact ⟨0, [], ptr, avail, .inr (.inl rfl)⟩
  | encPkt val pay ptr avail => exact ⟨val, pay, ptr, avail, .inr (.inr (.inl rfl))⟩
  | decPkt ptr avail => exact ⟨0, [], ptr, avail, .inr (.inr (.inr rfl))⟩

/-- A size command has no window (R27). -/
theorem format_ne_fSize_of_window {i : Instr} {win : Addr × Count} (h : i.window? = some win) :
    i.format ≠ .fSize := by
  intro hsize
  cases i <;> cases hsize <;> cases h

/-- The statuses that R151 lists for a command. There is no constructor for `StringTooLong`: its
code is reserved (R152). -/
inductive MayAnswer (cfg : Config) (i : Instr) : Status → Prop
  | ok : MayAnswer cfg i .ok
  | bufferTooSmall {win : Addr × Count} (hwindow : i.window? = some win) :
      MayAnswer cfg i .bufferTooSmall
  | valueTooLarge (hvalue : ChecksAValue i) : MayAnswer cfg i .valueTooLarge
  | badCommand (hbad : HasBadWindow cfg i) : MayAnswer cfg i .badCommand

/-! ## The parts of a command keep to the table -/

section
variable {cfg : Config} {i : Instr}

/-- The window test adds `BadCommand`, and only for a bad window (R42). -/
theorem mayAnswer_guardWindow {ptr : Addr} {avail : Count} {r : Reply}
    (hw : i.window? = some (ptr, avail)) (hr : MayAnswer cfg i r.rsp.status) :
    MayAnswer cfg i (guardWindow cfg ptr avail r).rsp.status := by
  rcases Nat.lt_or_ge cfg.top (ptr.toNat + avail.toNat) with hbad | hfit
  · rw [guardWindow_invalid hbad]
    exact .badCommand ⟨ptr, avail, hw, hbad⟩
  · rwa [guardWindow_valid hfit]

theorem mayAnswer_storeEncoding {win : Addr × Count} (hwindow : i.window? = some win)
    (avail : Nat) (e : List Byte) :
    MayAnswer cfg i (storeEncoding avail e).rsp.status := by
  rcases storeEncoding_status avail e with h | h <;> rw [h]
  · exact .ok
  · exact .bufferTooSmall hwindow

theorem mayAnswer_fail_decodeInt {w c : Nat} {st : Status} {bs : List Byte}
    {win : Addr × Count} (hwindow : i.window? = some win) (hvalue : ChecksAValue i)
    (hd : decodeInt w bs = .err st c) :
    MayAnswer cfg i (fail st c).rsp.status := by
  rcases decodeInt_err_status hd with rfl | rfl
  · exact .bufferTooSmall hwindow
  · exact .valueTooLarge hvalue

theorem mayAnswer_pktBodyReply (hvalue : ChecksAValue i) (n : Nat) (body : List Byte) :
    MayAnswer cfg i (pktBodyReply n body).rsp.status := by
  rcases pktBodyReply_status n body with h | h <;> rw [h]
  · exact .ok
  · exact .valueTooLarge hvalue

end

/-- Every command answers with a status of its row of R151, in every state. -/
theorem replyOf_mayAnswer (i : Instr) (s : State) :
    MayAnswer s.cfg i (replyOf i s).rsp.status := by
  cases i with
  | sizeVarint val | sizeVarlong val => exact .ok
  | encVarint val ptr avail | encVarlong val ptr avail | encPos x y z ptr avail =>
    exact mayAnswer_guardWindow rfl (mayAnswer_storeEncoding rfl _ _)
  | encPkt val pay ptr avail =>
    refine mayAnswer_guardWindow rfl ?_
    split
    · exact .valueTooLarge (.encPkt val pay ptr avail)
    · exact mayAnswer_storeEncoding rfl _ _
  | decVarint ptr avail | decVarlong ptr avail =>
    refine mayAnswer_guardWindow rfl ?_
    split
    · exact .ok
    · next hd => exact mayAnswer_fail_decodeInt rfl (by constructor) hd
  | decPos ptr avail =>
    refine mayAnswer_guardWindow rfl ?_
    split
    · exact .bufferTooSmall rfl
    · exact .ok
  | decPkt ptr avail =>
    have hvalue := ChecksAValue.decPkt ptr avail
    refine mayAnswer_guardWindow rfl ?_
    split
    · next hd => exact mayAnswer_fail_decodeInt rfl hvalue hd
    · split
      · exact .valueTooLarge hvalue
      · split
        · exact .bufferTooSmall rfl
        · exact mayAnswer_pktBodyReply hvalue _ _

/-! ## The obligation -/

/-- Settles O31: the response of a command is that of its reply, and each status that R151 lists for
the command meets its clause. -/
theorem statusesOfEachCommand : Obligations.StatusesOfEachCommand := by
  refine ⟨by decide, fun i s t r hexec hresp => ?_⟩
  have htable : MayAnswer s.cfg i r.status := exec_response hexec hresp ▸ replyOf_mayAnswer i s
  generalize r.status = st at htable
  cases htable with
  | ok => simp
  | bufferTooSmall hwindow => simpa using format_ne_fSize_of_window hwindow
  | valueTooLarge hvalue => simpa using hvalue.exists_eq
  | badCommand hbad => simpa [HasBadWindow, Config.top] using hbad

end Sys2Proof.Machine

/-! PROOFS. Reset (spec/70_reset_and_hazards.md R180, R183): between commands it changes nothing;
during a command it leaves the first bytes of what the command would have stored. How many bytes
those are at most is what an encode command counts in its response. -/

namespace Sys2Proof.Machine

open Sys2Proof.Safety

/-! ## An encode command counts what it stores -/

/-- The count of the response is the number of bytes stored. -/
def CountsItsStores (r : Reply) : Prop :=
  r.stores.length = r.rsp.consumed.toNat

theorem countsItsStores_fail (st : Status) : CountsItsStores (fail st 0) := rfl

/-- The stored bytes fit a window, so their number fits the 64 bits of `consumed` (R154, R155). -/
theorem countsItsStores_storeEncoding (avail : Count) (e : List Byte) :
    CountsItsStores (storeEncoding avail.toNat e) := by
  have havail := avail.isLt
  rcases Nat.lt_or_ge avail.toNat e.length with hshort | hroom
  · rw [storeEncoding_short hshort]
    simp [CountsItsStores, statusRsp, hshort.le]
  · rw [storeEncoding_room hroom]
    simp [CountsItsStores, okRsp, statusRsp, Nat.mod_eq_of_lt (hroom.trans_lt havail)]

/-- A bad window stores nothing and counts nothing (R66). -/
theorem countsItsStores_guardWindow (cfg : Config) (ptr : Addr) (avail : Count) {r : Reply}
    (hr : CountsItsStores r) : CountsItsStores (guardWindow cfg ptr avail r) := by
  unfold guardWindow
  split
  · exact hr
  · exact countsItsStores_fail .badCommand

/-- Every encode command counts the bytes it stores, whatever its status (R154). -/
theorem replyOf_countsItsStores {i : Instr} (s : State)
    (henc : i.format = .fEnc ∨ i.format = .fPos ∨ i.format = .fPkt) :
    CountsItsStores (replyOf i s) := by
  cases i with
  | sizeVarint val | sizeVarlong val | decVarint ptr avail | decVarlong ptr avail
  | decPos ptr avail | decPkt ptr avail => simp [Instr.format] at henc
  | encVarint val ptr avail | encVarlong val ptr avail | encPos x y z ptr avail =>
    exact countsItsStores_guardWindow _ _ _ (countsItsStores_storeEncoding _ _)
  | encPkt val pay ptr avail =>
    refine countsItsStores_guardWindow _ _ _ ?_
    split
    · exact countsItsStores_fail .valueTooLarge
    · exact countsItsStores_storeEncoding _ _

/-! ## The memory that an abandoned command leaves -/

section
variable (m : Memory) (base : Nat) {bs : List Byte} {j : Nat} (hj : j ≤ bs.length)
include hj

theorem read_writeSeq_take_inside {k : Nat} (hk : k < j) :
    bs[k]? = some ((m.writeSeq base (bs.take j)).read (base + k)) := by
  rw [← List.getElem?_take_of_lt hk]
  exact read_writeSeq_inside m base (bs.take j) (by simpa [hk] using hk.trans_le hj)

theorem read_writeSeq_take_outside {a : Nat} (ha : a < base ∨ base + j ≤ a) :
    (m.writeSeq base (bs.take j)).read a = m.read a :=
  read_writeSeq_outside m base a (bs.take j) (by rwa [List.length_take_of_le hj])

end

/-- A malformed command would store nothing (R66). -/
theorem replyOf_stores_eq_nil_of_malformed {c : Cmd} {i : Instr} (s : State)
    (hd : decode c = .ok i) (hbad : Malformed s.cfg c) : (replyOf i s).stores = [] := by
  obtain ⟨ptr, avail, hw, htop⟩ := (malformed_iff_hasBadWindow hd).1 hbad
  rw [replyOf_badWindow hw htop, badCommand_stores]

/-- The step that abandons a command: memory gets some first bytes of the command's stores, and no
response is delivered (R183). -/
theorem step_resetDuring {s : State} {c : Cmd} {i : Instr} {rest : List Event}
    (h : s.inputs = .resetDuring c :: rest) (hd : decode c = .ok i) :
    ∃ t j, step s = .next t ∧ j ≤ (replyOf i s).stores.length ∧
      t.mem = s.mem.writeSeq (baseOf i) ((replyOf i s).stores.take j) ∧
      t.cfg = s.cfg ∧ t.responses = s.responses ∧ t.inputs = rest := by
  rcases resetDuring_cases c (s.setInputs rest) with ⟨i', j, hd', hj, hstep⟩ | ⟨op, herr, -⟩
  · obtain rfl : i' = i := Except.ok.inj (hd'.symm.trans hd)
    rw [replyOf_congr i' (s := s) (s' := s.setInputs rest) rfl rfl] at hj hstep
    exact ⟨_, j, (step_input h).trans hstep, hj, rfl, rfl, rfl, rfl⟩
  · simp [hd] at herr

/-! ## The obligations -/

/-- Settles O9: the input is taken, and performing the reset is the identity. -/
theorem resetWhileIdleChangesNothing : Obligations.ResetWhileIdleChangesNothing :=
  fun _ _ h => step_input h

/-- Settles O44, by what the record decodes to: a command leaves the first `j` of the bytes it would
have stored, which are none for a decode, size or malformed command; a reserved code leaves none. -/
theorem resetDuringCommandLeavesAPrefix : Obligations.ResetDuringCommandLeavesAPrefix := by
  intro s c rest h
  cases hd : decode c with
  | error e =>
    obtain ⟨op⟩ := e
    have hstep : step s = .next (s.setInputs rest).countDraw := by
      simp [step_input h, perform, resetDuring, hd]
    exact ⟨_, hstep, rfl, rfl, rfl, fun _ => rfl, fun _ hi => nomatch hi⟩
  | ok i =>
    obtain ⟨t, j, hstep, hj, hmem, hcfg, hresp, hinputs⟩ := step_resetDuring h hd
    have hold : (replyOf i s).stores = [] → t.mem = s.mem := fun hnil => by
      rw [hmem, hnil, List.take_nil, Memory.writeSeq]
    refine ⟨t, hstep, hcfg, hresp, hinputs,
      fun hbad => hold (replyOf_stores_eq_nil_of_malformed s hd hbad), fun i' hi => ?_⟩
    obtain rfl : i = i' := Except.ok.inj hi
    obtain ⟨u, hexec, heff⟩ := exec_effect i s
    refine ⟨fun hnone => hold (replyOf_stores_eq_nil s hnone), u, _, _, j, hexec, heff, hj,
      replyOf_countsItsStores s, ?_⟩
    rw [hmem]
    exact ⟨fun k hk => read_writeSeq_take_inside s.mem _ hj hk,
      fun a ha => read_writeSeq_take_outside s.mem _ hj ha⟩

end Sys2Proof.Machine

/-! PROOFS. Records and commands (spec/30_encoding.md R60 to R62, R65): the record that a caller
presents for a command decodes to it, and only records with the code and the fields of that record
do. -/

namespace Sys2Proof

@[simp] theorem decode_encode (i : Instr) : decode (encode i) = .ok i := by
  cases i <;> rfl

/-- A command's own record has nothing in the fields that its format does not list (R65). -/
theorem encode_keep (i : Instr) : (encode i).keep i.format = encode i := by
  cases i <;> rfl

/-- With those fields cleared, a record that decodes to a command is the command's own (R62). -/
theorem keep_eq_encode_of_decode {c : Cmd} {i : Instr} (hd : decode c = .ok i) :
    c.keep i.format = encode i := by
  rcases decode_cases c with ⟨hop, hc⟩ | ⟨hop, hc⟩ | ⟨hop, hc⟩ | ⟨hop, hc⟩ | ⟨hop, hc⟩ | ⟨hop, hc⟩ |
    ⟨hop, hc⟩ | ⟨hop, hc⟩ | ⟨hop, hc⟩ | ⟨hop, hc⟩ | ⟨-, hc⟩ <;> rw [hc] at hd <;> cases hd
  all_goals simp only [Instr.format, Cmd.keep, encode, hop]

/-- The code is one of the six that have no command (R61). -/
def HasReservedCode (c : Cmd) : Prop :=
  c.op = 0x6 ∨ c.op = 0x7 ∨ c.op = 0x9 ∨ c.op = 0xB ∨ c.op = 0xD ∨ c.op = 0xF

/-- The decoder finds a command, or rejects a reserved code; never both. -/
theorem hasReservedCode_iff {c : Cmd} : HasReservedCode c ↔ ∃ e, decode c = .error e := by
  unfold HasReservedCode
  rcases decode_cases c with ⟨hop, hc⟩ | ⟨hop, hc⟩ | ⟨hop, hc⟩ | ⟨hop, hc⟩ | ⟨hop, hc⟩ | ⟨hop, hc⟩ |
    ⟨hop, hc⟩ | ⟨hop, hc⟩ | ⟨hop, hc⟩ | ⟨hop, hc⟩ | ⟨hreserved, hc⟩
  on_goal 11 => exact iff_of_true hreserved ⟨_, hc⟩
  all_goals simp [hop, hc]

/-- Settles O1: a record decodes as a command exactly when it agrees with the command's own record,
because what decodes alike is what agrees on the format's fields. -/
theorem decodeAndEncodeAgree : Obligations.DecodeAndEncodeAgree := by
  refine ⟨decode_encode, fun c i => ⟨keep_eq_encode_of_decode, fun hkeep => ?_⟩⟩
  calc decode c = decode (encode i) :=
        decode_eq_of_keep_eq (decode_encode i) (hkeep.trans (encode_keep i).symm)
    _ = .ok i := decode_encode i

/-- Settles O3: what does not decode to a command is rejected, and that for its code. -/
theorem sixCodesAreReserved : Obligations.SixCodesAreReserved := by
  intro c
  change (∀ i, decode c ≠ .ok i) ↔ HasReservedCode c
  rw [hasReservedCode_iff]
  cases decode c <;> simp

/-- Settles O5: the decoder is run on each of the words. -/
theorem tableWordsDecode : Obligations.TableWordsDecode := by
  exact ⟨rfl, rfl, rfl, rfl, rfl, rfl, rfl⟩

/-- Settles O6: each command has a code of its own, and its three parts are read off. -/
theorem codesHaveUnitDirectionWidth : Obligations.CodesHaveUnitDirectionWidth := by
  intro i
  cases i <;> simp only [encode, Cmd.blank] <;> decide

end Sys2Proof

/-! PROOFS. Inputs and steps (spec/10_state.md R20, R25, R27, R28; spec/70_reset_and_hazards.md R183,
R185, R187): what any input can do to the state is said once, and the invariant, the list of
responses and a whole run follow from it. -/

namespace Sys2Proof.Machine

open Sys2Proof.Safety

/-! ## What an input can do -/

/-- From `s` to `t` the block has delivered `n` responses and may have written `Mem` at addresses
that exist; the parameters and the inputs to come are as before. -/
structure Advances (n : Nat) (s t : State) : Prop where
  cfg : t.cfg = s.cfg
  inputs : t.inputs = s.inputs
  responses : ∃ rs, rs.length = n ∧ t.responses = s.responses ++ rs
  memWf : s.mem.wf = true → t.mem.wf = true
  memWithin : s.mem.within s.cfg = true → t.mem.within t.cfg = true

namespace Advances

theorem refl (s : State) : Advances 0 s s :=
  ⟨rfl, rfl, ⟨[], rfl, (List.append_nil _).symm⟩, id, id⟩

theorem trans {n k : Nat} {s t u : State} (h : Advances n s t) (h' : Advances k t u) :
    Advances (n + k) s u := by
  obtain ⟨rs, hn, hrs⟩ := h.responses
  obtain ⟨rs', hk, hrs'⟩ := h'.responses
  exact ⟨h'.cfg.trans h.cfg, h'.inputs.trans h.inputs,
    ⟨rs ++ rs', by rw [List.length_append, hn, hk], by rw [hrs', hrs, List.append_assoc]⟩,
    h'.memWf ∘ h.memWf, h'.memWithin ∘ h.memWithin⟩

/-- The invariant is kept: it speaks of the parameters and of memory only. -/
theorem stateWf {n : Nat} {s t : State} (h : Advances n s t) (hs : StateWf s) : StateWf t := by
  obtain ⟨hcfg, hwf, hwithin⟩ := hs
  exact ⟨h.cfg ▸ hcfg, h.memWf hwf, h.memWithin hwithin⟩

theorem deliver (s : State) (r : Rsp) : Advances 1 s (s.deliver r) :=
  ⟨rfl, rfl, ⟨[r], rfl, rfl⟩, id, id⟩

theorem countDraw (s : State) : Advances 0 s s.countDraw :=
  ⟨rfl, rfl, ⟨[], rfl, (List.append_nil _).symm⟩, id, id⟩

theorem writeSeq (s : State) {base : Nat} {bs : List Byte}
    (h : bs = [] ∨ base + bs.length ≤ s.cfg.top) :
    Advances 0 s (s.setMem (s.mem.writeSeq base bs)) :=
  ⟨rfl, rfl, ⟨[], rfl, (List.append_nil _).symm⟩, writeSeq_wf _ _ _,
    fun hwithin => writeSeq_within _ _ _ _ hwithin h⟩

theorem write {s : State} {a : Nat} (h : a < s.cfg.top) (b : Byte) :
    Advances 0 s (s.setMem (s.mem.write a b)) :=
  writeSeq s (base := a) (bs := [b]) (Or.inr h)

/-- A command: its bytes, then its response (R20, R50 (a)). -/
theorem complete (i : Instr) (s : State) :
    Advances 1 s (s.complete (baseOf i) (replyOf i s)) :=
  (writeSeq s (replyOf_stores_within i s)).trans (deliver _ _)

/-- A command that reset abandons: some first bytes of its stores, and no response (R183). -/
theorem abandon (i : Instr) (s : State) (j : Nat) :
    Advances 0 s
      (s.setMem (s.mem.writeSeq (baseOf i) ((replyOf i s).stores.take j))).countDraw := by
  refine (writeSeq s ?_).trans (countDraw _)
  rcases replyOf_stores_within i s with h | h
  · exact Or.inl (by rw [h, List.take_nil])
  · exact Or.inr (le_trans (Nat.add_le_add_left (List.length_take_le' _ _) _) h)

end Advances

/-- A presented record is answered, whatever it holds (R66, R150). -/
theorem exists_present (c : Cmd) (s : State) : ∃ t, present c s = .next t ∧ Advances 1 s t := by
  rcases present_cases c s with ⟨i, -, hp⟩ | ⟨-, -, hp⟩
  · exact ⟨_, hp, .complete i s⟩
  · exact ⟨_, hp, .deliver s _⟩

/-- Performing an input delivers a response exactly when the input is one that is answered. -/
theorem advances_of_perform {e : Event} {s t : State} (h : perform e s = .next t) :
    Advances (answered e).toNat s t := by
  cases e with
  | command c =>
    obtain ⟨t', ht', hadv⟩ := exists_present c s
    obtain rfl := Host.Outcome.next.inj (h.symm.trans ht')
    exact hadv
  | write a b =>
    rcases outsideWrite_cases a b s with ⟨ha, hw⟩ | ⟨-, hw⟩
    · obtain rfl := Host.Outcome.next.inj (h.symm.trans hw)
      exact .write ha b
    · cases h.symm.trans hw
  | reset =>
    obtain rfl := Host.Outcome.next.inj h
    exact .refl s
  | resetDuring c =>
    rcases resetDuring_cases c s with ⟨i, j, -, -, hr⟩ | ⟨-, -, hr⟩
    · obtain rfl := Host.Outcome.next.inj (h.symm.trans hr)
      exact .abandon i s j
    · obtain rfl := Host.Outcome.next.inj (h.symm.trans hr)
      exact .countDraw s
  | writeDuring c a b =>
    rcases presentDuringWrite_cases c a b s with ⟨-, hw⟩ | ⟨-, -, hw⟩ | ⟨-, ha, hw⟩
    · cases h.symm.trans hw
    · cases h.symm.trans hw
    · obtain ⟨t', ht', hadv⟩ := exists_present c (s.setMem (s.mem.write a.toNat b))
      obtain rfl := Host.Outcome.next.inj (h.symm.trans (hw.trans ht'))
      exact (Advances.write ha b).trans hadv

/-- A step is idle, or performs the oldest input. -/
theorem step_next_cases {s t : State} (h : step s = .next t) :
    t = s ∨ ∃ e rest, s.inputs = e :: rest ∧
      Advances (answered e).toNat (s.setInputs rest) t := by
  cases hs : s.inputs with
  | nil => exact Or.inl (Host.Outcome.next.inj (h.symm.trans (step_idle hs)))
  | cons e rest =>
    rw [step_input hs] at h
    exact Or.inr ⟨e, rest, rfl, advances_of_perform h⟩

/-! ## What the caller owes is enough -/

theorem inWindow_iff {cfg : Config} {i : Instr} {a : Nat} :
    inWindow cfg i a = true ↔ ∃ ptr avail, i.window? = some (ptr, avail) ∧
      ptr.toNat + avail.toNat ≤ cfg.top ∧ ptr.toNat ≤ a ∧ a < ptr.toNat + avail.toNat := by
  unfold inWindow
  cases i.window? with
  | none => simp
  | some win =>
    obtain ⟨ptr, avail⟩ := win
    simp [windowValid_iff, and_assoc]

/-- The address is in the window of a record's command (R40): a record without one has no window. -/
theorem racesWith_iff {cfg : Config} {c : Cmd} {a : Nat} :
    racesWith cfg c a = true ↔ ∃ i, decode c = .ok i ∧ inWindow cfg i a = true := by
  unfold racesWith
  cases decode c <;> simp

/-- A write that keeps clear of the running command's window is no race (R53). -/
theorem not_racesWith_of_lawful {cfg : Config} {c : Cmd} {a : Addr} {b : Byte}
    (h : Lawful cfg (.writeDuring c a b)) : racesWith cfg c a.toNat = false := by
  obtain ⟨-, hclear⟩ := h
  rw [← Bool.not_eq_true, racesWith_iff]
  rintro ⟨i, hd, hin⟩
  obtain ⟨ptr, avail, hw, hfit, hlow, hhigh⟩ := inWindow_iff.1 hin
  exact hclear i ptr avail hd hw hfit ⟨hlow, hhigh⟩

/-- Then the write is performed, and the command after it (log 10). -/
theorem presentDuringWrite_of_lawful {s : State} {c : Cmd} {a : Addr} {b : Byte}
    (h : Lawful s.cfg (.writeDuring c a b)) :
    presentDuringWrite c a b s = present c (s.setMem (s.mem.write a.toNat b)) := by
  rcases presentDuringWrite_cases c a b s with ⟨hrace, -⟩ | ⟨-, habsent, -⟩ | ⟨-, -, hw⟩
  · rw [not_racesWith_of_lawful h] at hrace
    cases hrace
  · exact absurd h.1 (Nat.not_lt.2 habsent)
  · exact hw

theorem outsideWrite_of_lt {a : Addr} {s : State} (b : Byte) (h : a.toNat < s.cfg.top) :
    outsideWrite a b s = .next (s.setMem (s.mem.write a.toNat b)) :=
  if_pos h

/-- An input that keeps the caller's duties does not stop the run. -/
theorem exists_perform_of_lawful {e : Event} {s : State} (h : Lawful s.cfg e) :
    ∃ t, perform e s = .next t := by
  cases e with
  | command c =>
    obtain ⟨t, ht, -⟩ := exists_present c s
    exact ⟨t, ht⟩
  | write a b => exact ⟨_, outsideWrite_of_lt b h⟩
  | reset => exact ⟨s, rfl⟩
  | resetDuring c =>
    rcases resetDuring_cases c s with ⟨i, j, -, -, hr⟩ | ⟨-, -, hr⟩
    · exact ⟨_, hr⟩
    · exact ⟨_, hr⟩
  | writeDuring c a b =>
    obtain ⟨t, ht, -⟩ := exists_present c (s.setMem (s.mem.write a.toNat b))
    exact ⟨t, (presentDuringWrite_of_lawful h).trans ht⟩

/-- A run of lawful inputs, by induction on the inputs: each step takes one of them. -/
theorem exists_run_of_lawful (es : List Event) (s : State) (hs : s.inputs = es)
    (h : ∀ e ∈ es, Lawful s.cfg e) :
    ∃ t : State, Host.Core.run core es.length s = .next t ∧ t.inputs = [] ∧ t.cfg = s.cfg ∧
      t.responses.length = s.responses.length + es.countP answered := by
  induction es generalizing s with
  | nil => exact ⟨s, rfl, hs, rfl, rfl⟩
  | cons e rest ih =>
    obtain ⟨he, hrest⟩ := List.forall_mem_cons.1 h
    obtain ⟨u, hu⟩ := exists_perform_of_lawful (s := s.setInputs rest) he
    have hadv := advances_of_perform hu
    obtain ⟨rs, hlen, hrs⟩ := hadv.responses
    obtain ⟨t, hrun, hnil, hcfg, hcount⟩ := ih u hadv.inputs fun e' he' => hadv.cfg ▸ hrest e' he'
    have hstep : core.step s = .next u := (step_input hs).trans hu
    refine ⟨t, ?_, hnil, hcfg.trans hadv.cfg, ?_⟩
    · simpa only [List.length_cons, Host.Core.run, hstep] using hrun
    · rw [hcount, hrs, List.length_append, hlen, List.countP_cons, setInputs_responses]
      cases answered e <;> simp +arith

/-! ## The obligations -/

/-- Settles O11: an idle step keeps the state, and every input keeps the invariant. -/
theorem stepKeepsStateWellFormed : Obligations.StepKeepsStateWellFormed := by
  intro s t hs h
  rcases step_next_cases h with rfl | ⟨e, rest, -, hadv⟩
  · exact hs
  · exact hadv.stateWf hs

/-- Settles O49: every input only appends to the responses. -/
theorem deliveredResponsesNeverChange : Obligations.DeliveredResponsesNeverChange := by
  intro s t h
  rcases step_next_cases h with rfl | ⟨e, rest, -, hadv⟩
  · exact ⟨⟨[], List.append_nil _⟩, rfl⟩
  · obtain ⟨rs, -, hrs⟩ := hadv.responses
    exact ⟨⟨rs, hrs.symm⟩, hadv.cfg⟩

/-- Settles O50: the run over the inputs of the state. -/
theorem lawfulRunAnswersEveryCommandOnce : Obligations.LawfulRunAnswersEveryCommandOnce :=
  fun s h => exists_run_of_lawful s.inputs s rfl h

/-- Settles O10: each field is read off the reset state. -/
theorem resetStateIsWellFormed : Obligations.ResetStateIsWellFormed :=
  ⟨⟨rfl, reset_mem_wf⟩, rfl, rfl⟩

/-- Settles O7: of a record that decodes, `present` is `exec`. -/
theorem stepRunsThePresentedCommand : Obligations.StepRunsThePresentedCommand := by
  intro s c i rest h hd
  rw [step_input h]
  simp only [perform, present, hd]
  rfl

/-- Settles O8: an idle step is the identity. -/
theorem stepWithNoInputIsIdle : Obligations.StepWithNoInputIsIdle :=
  fun _ h => step_idle h

/-- Settles O46: an address in the window of the running command is a race. -/
theorem writeInsideTheWindowIsRefused : Obligations.WriteInsideTheWindowIsRefused := by
  intro s c a b rest i ptr avail h hd hw hfit hlow hhigh
  have hrace : racesWith s.cfg c a.toNat = true :=
    racesWith_iff.2 ⟨i, hd, inWindow_iff.2 ⟨ptr, avail, hw, hfit, hlow, hhigh⟩⟩
  rw [step_input h]
  exact if_pos hrace

/-- Settles O47: the caller's write is one write of memory. -/
theorem callerWriteIsReadBack : Obligations.CallerWriteIsReadBack := by
  intro s a b rest h ha
  exact ⟨_, (step_input h).trans (outsideWrite_of_lt (s := s.setInputs rest) b ha), rfl,
    read_write_same _ _ _, fun _ hx => read_write_other _ _ hx⟩

/-- Settles O48: the write's test of the address fails. -/
theorem writeToAbsentAddressFaults : Obligations.WriteToAbsentAddressFaults := by
  intro s a b rest h ha
  rw [step_input h]
  exact if_neg (Nat.not_lt.2 ha)

end Sys2Proof.Machine

/-! PROOFS. What holds of every command (spec/10_state.md R20 to R31, spec/20_memory.md R40 to R53):
where it may write, what its answer depends on, and that a write outside its window commutes with
it. -/

namespace Sys2Proof.Machine

open Sys2Proof.Safety

/-! ## Memory after a sequence of writes -/

/-- A byte that agrees before a sequence of writes agrees after it. -/
theorem read_writeSeq_congr {m m' : Memory} {x : Nat} (base : Nat) (bs : List Byte)
    (h : m'.read x = m.read x) :
    (m'.writeSeq base bs).read x = (m.writeSeq base bs).read x := by
  by_cases hout : x < base ∨ base + bs.length ≤ x
  · rw [read_writeSeq_outside _ _ _ _ hout, read_writeSeq_outside _ _ _ _ hout, h]
  · obtain ⟨k, rfl⟩ : ∃ k, x = base + k := ⟨x - base, by omega⟩
    have hk : k < bs.length := by omega
    exact Option.some.inj
      ((read_writeSeq_inside m' base bs hk).symm.trans (read_writeSeq_inside m base bs hk))

/-- A write outside the bytes of a sequence may come before or after it. -/
theorem read_writeSeq_write_comm (m : Memory) {a base : Nat} (b : Byte) {bs : List Byte}
    (h : a < base ∨ base + bs.length ≤ a) (x : Nat) :
    ((m.write a b).writeSeq base bs).read x = ((m.writeSeq base bs).write a b).read x := by
  by_cases hx : x = a
  · rw [hx, read_writeSeq_outside _ _ _ _ h, read_write_same, read_write_same]
  · rw [read_write_other _ _ hx]
    exact read_writeSeq_congr base bs (read_write_other m b hx)

/-! ## Where a command writes -/

/-- The address is outside the window of the command; a command without a window, or with a bad one,
has no byte that it may access (R27, R40, R66). -/
def OutsideWindow (cfg : Config) (i : Instr) (a : Nat) : Prop :=
  ∀ ptr avail, i.window? = some (ptr, avail) → ptr.toNat + avail.toNat ≤ cfg.top →
    a < ptr.toNat ∨ ptr.toNat + avail.toNat ≤ a

theorem outsideWindow_iff {cfg : Config} {i : Instr} {a : Nat} :
    OutsideWindow cfg i a ↔ inWindow cfg i a = false := by
  rw [← Bool.not_eq_true, inWindow_iff]
  refine ⟨fun h ⟨ptr, avail, hw, hfit, hlow, hhigh⟩ => ?_, fun h ptr avail hw hfit => ?_⟩
  · have := h ptr avail hw hfit
    omega
  · by_contra hin
    exact h ⟨ptr, avail, hw, hfit, by omega, by omega⟩

/-- A command stores nothing, or its bytes are all on one side of such an address. -/
theorem replyOf_stores_clear {i : Instr} {s : State} {a : Nat} (h : OutsideWindow s.cfg i a) :
    (replyOf i s).stores = [] ∨
      a < baseOf i ∨ baseOf i + (replyOf i s).stores.length ≤ a := by
  rcases replyOf_stores i s with hnil | ⟨ptr, avail, hw, hbase, hfit, hlen⟩
  · exact Or.inl hnil
  · have := h ptr avail hw hfit
    omega

/-! ## What an answer depends on -/

/-- A command that stays where it is. -/
theorem movedTo_self {i : Instr} {ptr : Addr} {avail : Count} (hw : i.window? = some (ptr, avail)) :
    movedTo ptr i = i := by
  cases i <;> cases hw <;> rfl

/-- Two states whose memories agree in the window of a command get the same answer (R30); for a
command without a window, or with a bad one, that is any two states. -/
theorem replyOf_eq_of_sameWindowBytes {i : Instr} {s s' : State} (hcfg : s'.cfg = s.cfg)
    (h : ∀ ptr avail, i.window? = some (ptr, avail) → ptr.toNat + avail.toNat ≤ s.cfg.top →
      SameWindowBytes s s' ptr ptr avail) : replyOf i s' = replyOf i s := by
  cases hw : i.window? with
  | none =>
    cases i with
    | sizeVarint val | sizeVarlong val => rfl
    | _ => cases hw
  | some win =>
    obtain ⟨ptr, avail⟩ := win
    rcases Nat.lt_or_ge s.cfg.top (ptr.toNat + avail.toNat) with hbad | hfit
    · rw [replyOf_badWindow hw hbad, replyOf_badWindow hw (hcfg ▸ hbad)]
    · conv_lhs => rw [← movedTo_self hw]
      refine replyOf_movedTo i ptr hcfg fun ptr' avail' hw' => ?_
      cases hw.symm.trans hw'
      exact ⟨hfit, hfit, fun _ => h ptr avail hw hfit⟩

/-- An encode command does not look at memory (R27). -/
theorem replyOf_encode_eq {i : Instr} {s s' : State} (hcfg : s'.cfg = s.cfg)
    (henc : i.format = .fEnc ∨ i.format = .fPos ∨ i.format = .fPkt) :
    replyOf i s' = replyOf i s := by
  cases i with
  | sizeVarint val | sizeVarlong val | decVarint ptr avail | decVarlong ptr avail
  | decPos ptr avail | decPkt ptr avail => simp [Instr.format] at henc
  | encVarint val ptr avail | encVarlong val ptr avail | encPos x y z ptr avail
  | encPkt val pay ptr avail => simp only [replyOf, hcfg]

/-! ## A write while a command runs -/

/-- The state `s'` is `s` after a write of `b` at `a`, up to the inputs to come. -/
structure WrittenAt (a : Nat) (b : Byte) (s s' : State) : Prop where
  cfg : s'.cfg = s.cfg
  mem : s'.mem = s.mem.write a b
  responses : s'.responses = s.responses

section
variable {s s' : State} {a : Nat} {b : Byte}

/-- A write outside the window of a command does not change its answer. -/
theorem WrittenAt.replyOf_eq {i : Instr} (h : WrittenAt a b s s')
    (hout : OutsideWindow s.cfg i a) : replyOf i s' = replyOf i s := by
  refine replyOf_eq_of_sameWindowBytes h.cfg fun ptr avail hw hfit k hk => ?_
  have := hout ptr avail hw hfit
  rw [windowByte, h.mem]
  exact read_write_other _ _ (by omega)

/-- Before and after a write that is no race, a record gets the same response and stores the same
bytes, so that the write might as well come last (R53). -/
theorem WrittenAt.present_comm {c : Cmd} (h : WrittenAt a b s s')
    (hrace : racesWith s.cfg c a = false) :
    ∃ t u, present c s' = .next t ∧ present c s = .next u ∧ t.responses = u.responses ∧
      ∀ x, t.mem.read x = (u.mem.write a b).read x := by
  rcases present_cases c s with ⟨i, hd, hu⟩ | ⟨op, hd, hu⟩
  · have hout : OutsideWindow s.cfg i a := by
      rw [outsideWindow_iff, ← Bool.not_eq_true]
      exact fun hin => Bool.false_ne_true (hrace.symm.trans (racesWith_iff.2 ⟨i, hd, hin⟩))
    have ht : present c s' = .next (s'.complete (baseOf i) (replyOf i s)) := by
      rw [← h.replyOf_eq hout, ← exec_eq_complete]
      simp only [present, hd]
    refine ⟨_, _, ht, hu, by simp [h.responses], fun x => ?_⟩
    rw [complete_mem, complete_mem, h.mem]
    rcases replyOf_stores_clear (s := s) hout with hnil | hclear
    · simp only [hnil, Memory.writeSeq]
    · exact read_writeSeq_write_comm s.mem b hclear x
  · have ht : present c s' = .next (s'.deliver (statusRsp .badCommand 0)) := by
      rcases present_cases c s' with ⟨i, hd', -⟩ | ⟨-, -, ht⟩
      · cases hd.symm.trans hd'
      · exact ht
    exact ⟨_, _, ht, hu, by simp [h.responses], fun x => by simp [h.mem]⟩

end

/-! ## The obligations -/

/-- Settles O22: completing a command changes memory and adds its response. -/
theorem everyCommandEndsInOneResponse : Obligations.EveryCommandEndsInOneResponse :=
  fun i s => ⟨_, _, exec_eq_complete i s⟩

/-- Settles O23: the reply and the memory it is written to are the same in both states. -/
theorem earlierCommandsHaveNoInfluence : Obligations.EarlierCommandsHaveNoInfluence := by
  intro i s s' hcfg hmem
  have h' := exec_eq_complete i s'
  rw [replyOf_congr i hcfg hmem, State.complete, hmem] at h'
  exact ⟨_, _, exec_eq_complete i s, h'⟩

/-- Settles O24: the bytes of a command lie in its window. -/
theorem noByteOutsideTheWindowChanges : Obligations.NoByteOutsideTheWindowChanges := by
  intro i s t a hexec hout
  obtain rfl := Host.Outcome.next.inj (hexec.symm.trans (exec_eq_complete i s))
  rcases replyOf_stores_clear (s := s) hout with hnil | hclear
  · rw [complete_mem, hnil, Memory.writeSeq]
  · exact read_writeSeq_outside _ _ _ _ hclear

/-- Settles O26: the one reply of an encode command, completed in both states. -/
theorem encodersNeverReadMemory : Obligations.EncodersNeverReadMemory := by
  intro i s s' hcfg henc
  obtain ⟨t, ht, heff⟩ := exec_effect i s
  obtain ⟨t', ht', heff'⟩ := exec_effect i s'
  rw [replyOf_encode_eq hcfg henc] at heff'
  exact ⟨t, t', _, _, ht, ht', heff, heff'⟩

/-- Settles O27: a decode or size command has nothing to store. -/
theorem decodersAndSizesNeverWriteMemory : Obligations.DecodersAndSizesNeverWriteMemory := by
  intro i s h
  refine ⟨(replyOf i s).rsp, ?_⟩
  rw [exec_eq_complete, complete_of_no_stores _ _ _ (replyOf_stores_eq_nil s h)]
  rfl

/-- Settles O45: a lawful write is no race, so it commutes with the command; the caller's write after
the command goes to the same address, which exists. -/
theorem writeOutsideTheWindowCommutes : Obligations.WriteOutsideTheWindowCommutes := by
  intro s c a b rest h hlawful
  have hwritten : WrittenAt a.toNat b (s.setInputs (.write a b :: rest))
      ((s.setInputs rest).setMem (s.mem.write a.toNat b)) := ⟨rfl, rfl, rfl⟩
  obtain ⟨t, u, ht, hu, hresp, hmem⟩ :=
    hwritten.present_comm (c := c) (not_racesWith_of_lawful hlawful)
  have hadvT := advances_of_perform (e := .command c) ht
  have hadvU := advances_of_perform (e := .command c) hu
  have hexists : a.toNat < (u.setInputs rest).cfg.top := by
    rw [setInputs_cfg, hadvU.cfg]
    exact hlawful.1
  exact ⟨t, u, (u.setInputs rest).setMem (u.mem.write a.toNat b),
    (step_input h).trans
      ((presentDuringWrite_of_lawful (s := s.setInputs rest) hlawful).trans ht),
    (step_input (e := .command c) (rest := .write a b :: rest) rfl).trans hu,
    (step_input hadvU.inputs).trans (outsideWrite_of_lt b hexists), hresp,
    hadvT.inputs, hadvT.cfg.trans hadvU.cfg.symm, hmem⟩

end Sys2Proof.Machine

/-! PROOFS. What a response may hold (spec/30_encoding.md R64, spec/60_exceptions.md R154) and how
many bytes a command stores at most (spec/70_reset_and_hazards.md R190). -/

namespace Sys2Proof.Machine

open Sys2Proof.Safety

/-! ## The count of a response (R154) -/

/-- The count lies within a window of `avail` bytes, and is all of it for `BufferTooSmall`. -/
def CountFits (avail : Count) (r : Rsp) : Prop :=
  (r.status = .bufferTooSmall → r.consumed = avail) ∧ r.consumed.toNat ≤ avail.toNat

theorem statusRsp_consumed {st : Status} {n : Nat} {avail : Count} (h : n ≤ avail.toNat) :
    (statusRsp st n).consumed.toNat = n :=
  (BitVec.toNat_ofNat _ _).trans (Nat.mod_eq_of_lt (h.trans_lt avail.isLt))

section
variable {avail : Count} {r : Rsp}

/-- A status other than `BufferTooSmall` with a count inside the window. -/
theorem countFits_of_le {n : Nat} (hcount : r.consumed = BitVec.ofNat 64 n)
    (hst : r.status ≠ .bufferTooSmall) (h : n ≤ avail.toNat) : CountFits avail r := by
  refine ⟨fun hshort => absurd hshort hst, ?_⟩
  rw [hcount]
  exact (statusRsp_consumed (st := .ok) h).trans_le h

theorem countFits_bufferTooSmall : CountFits avail (statusRsp .bufferTooSmall avail.toNat) :=
  ⟨fun _ => (BitVec.ofNat_toNat _ _).trans (BitVec.setWidth_eq _),
    (statusRsp_consumed le_rfl).le⟩

theorem countFits_guardWindow {cfg : Config} {ptr : Addr} {r : Reply} (h : CountFits avail r.rsp) :
    CountFits avail (guardWindow cfg ptr avail r).rsp := by
  unfold guardWindow
  split
  · exact h
  · exact countFits_of_le rfl Status.noConfusion (Nat.zero_le _)

theorem countFits_storeEncoding (e : List Byte) :
    CountFits avail (storeEncoding avail.toNat e).rsp := by
  rcases Nat.lt_or_ge avail.toNat e.length with hshort | hroom
  · rw [storeEncoding_short hshort]
    exact countFits_bufferTooSmall
  · rw [storeEncoding_room hroom]
    exact countFits_of_le rfl Status.noConfusion hroom

/-- An error of the decoder over a window counts bytes of the window. -/
theorem countFits_fail_decodeInt {w c : Nat} {m : Memory} {ptr : Addr} {st : Status}
    (hd : decodeInt w (windowInt w m ptr avail) = .err st c) : CountFits avail (fail st c).rsp := by
  have hlen := windowInt_length w m ptr avail
  rcases decodeInt_cases w (windowInt w m ptr avail) with ⟨v, n, h, -⟩ | ⟨h, hlt⟩ | ⟨h, hge⟩ <;>
    cases hd.symm.trans h
  · have hall : (windowInt w m ptr avail).length = avail.toNat := by omega
    rw [hall]
    exact countFits_bufferTooSmall
  · exact countFits_of_le rfl Status.noConfusion (by omega)

/-- A value that the decoder finds in a window ends in the window, after at most `MAXB(w)` bytes. -/
theorem le_of_decodeInt_window_ok {w n : Nat} {m : Memory} {ptr : Addr} {v : BitVec w}
    (hd : decodeInt w (windowInt w m ptr avail) = .ok v n) :
    n ≤ maxBytes w ∧ n ≤ avail.toNat := by
  have hlen := windowInt_length w m ptr avail
  rcases decodeInt_cases w (windowInt w m ptr avail) with ⟨v', n', h, -, hmax, hle⟩ | ⟨h, -⟩ | ⟨h, -⟩
    <;> cases hd.symm.trans h
  exact ⟨hmax, by omega⟩

/-- A frame's answer counts bytes of the frame (R136). -/
theorem countFits_pktBodyReply {n : Nat} {body : List Byte} (h : n + body.length ≤ avail.toNat) :
    CountFits avail (pktBodyReply n body).rsp := by
  unfold pktBodyReply
  rcases decodeInt_cases 32 body with ⟨v, k, hd, -⟩ | ⟨hd, -⟩ | ⟨hd, hge⟩ <;> rw [hd]
  · exact countFits_of_le rfl Status.noConfusion h
  · exact countFits_of_le rfl Status.noConfusion h
  · exact countFits_of_le rfl Status.noConfusion (by omega)

end

/-- The count of every command with a window stays within the window. -/
theorem replyOf_countFits {i : Instr} {ptr : Addr} {avail : Count} (s : State)
    (hw : i.window? = some (ptr, avail)) : CountFits avail (replyOf i s).rsp := by
  cases i with
  | sizeVarint val | sizeVarlong val => cases hw
  | encVarint val p a | encVarlong val p a | encPos x y z p a =>
    cases hw
    exact countFits_guardWindow (countFits_storeEncoding _)
  | encPkt val pay p a =>
    cases hw
    refine countFits_guardWindow ?_
    split
    · exact countFits_of_le rfl Status.noConfusion (Nat.zero_le _)
    · exact countFits_storeEncoding _
  | decVarint p a | decVarlong p a =>
    cases hw
    refine countFits_guardWindow ?_
    split
    · next hd => exact countFits_of_le rfl Status.noConfusion (le_of_decodeInt_window_ok hd).2
    · next hd => exact countFits_fail_decodeInt hd
  | decPos p a =>
    cases hw
    refine countFits_guardWindow ?_
    split
    · exact countFits_bufferTooSmall
    · next hroom => exact countFits_of_le rfl Status.noConfusion (Nat.not_lt.1 hroom)
  | decPkt p a =>
    cases hw
    refine countFits_guardWindow ?_
    split
    · next hd => exact countFits_fail_decodeInt hd
    · next l n hd =>
      split
      · exact countFits_of_le rfl Status.noConfusion (le_of_decodeInt_window_ok hd).2
      · split
        · exact countFits_bufferTooSmall
        · next hroom =>
          exact countFits_pktBodyReply (by rw [windowSeq_length]; exact Nat.not_lt.1 hroom)

/-- Only a command with a good window answers anything but `BadCommand` (R42). -/
theorem window_fits_of_status {i : Instr} {s : State} {ptr : Addr} {avail : Count}
    (hw : i.window? = some (ptr, avail)) (hst : (replyOf i s).rsp.status ≠ .badCommand) :
    ptr.toNat + avail.toNat ≤ s.cfg.top := by
  by_contra hbad
  rw [replyOf_badWindow hw (Nat.not_le.1 hbad)] at hst
  exact hst rfl

/-! ## The result fields of a response (R64) -/

/-- The responses that a command may give: none but `OK` of the four decode commands carries a result
field. -/
inductive MayCarry : Instr → Rsp → Prop
  | nothing (i : Instr) (st : Status) (n : Nat) : MayCarry i (statusRsp st n)
  | varint (ptr : Addr) (avail : Count) (n : Nat) (v : Word64) :
      MayCarry (.decVarint ptr avail) { okRsp n with val := v }
  | varlong (ptr : Addr) (avail : Count) (n : Nat) (v : Word64) :
      MayCarry (.decVarlong ptr avail) { okRsp n with val := v }
  | position (ptr : Addr) (avail : Count) (v : Word64) :
      MayCarry (.decPos ptr avail) (posRsp v)
  | packet (ptr : Addr) (avail : Count) (n : Nat) (v : Word64) (pay : List Byte) :
      MayCarry (.decPkt ptr avail) { okRsp n with val := v, pay := pay }

/-- A response without results is determined by its status and its count (R64 (c)). -/
theorem statusRsp_eq_bare (st : Status) (n : Nat) :
    statusRsp st n = bare st (statusRsp st n).consumed.toNat := by
  unfold bare
  rw [BitVec.ofNat_toNat, BitVec.setWidth_eq]
  rfl

theorem mayCarry_guardWindow {cfg : Config} {i : Instr} {ptr : Addr} {avail : Count} {r : Reply}
    (h : MayCarry i r.rsp) : MayCarry i (guardWindow cfg ptr avail r).rsp := by
  unfold guardWindow
  split
  · exact h
  · exact .nothing i .badCommand 0

theorem mayCarry_storeEncoding (i : Instr) (avail : Nat) (e : List Byte) :
    MayCarry i (storeEncoding avail e).rsp := by
  unfold storeEncoding
  split
  · exact .nothing i .bufferTooSmall avail
  · exact .nothing i .ok e.length

theorem mayCarry_pktBodyReply (ptr : Addr) (avail : Count) (n : Nat) (body : List Byte) :
    MayCarry (.decPkt ptr avail) (pktBodyReply n body).rsp := by
  unfold pktBodyReply
  split
  · exact .packet ptr avail _ _ _
  · exact .nothing _ _ _
  · exact .nothing _ _ _

/-- Every command's response is one of these. -/
theorem replyOf_mayCarry (i : Instr) (s : State) : MayCarry i (replyOf i s).rsp := by
  cases i with
  | sizeVarint val | sizeVarlong val => exact .nothing _ .ok _
  | encVarint val ptr avail | encVarlong val ptr avail | encPos x y z ptr avail =>
    exact mayCarry_guardWindow (mayCarry_storeEncoding _ _ _)
  | encPkt val pay ptr avail =>
    refine mayCarry_guardWindow ?_
    split
    · exact .nothing _ _ _
    · exact mayCarry_storeEncoding _ _ _
  | decVarint ptr avail =>
    refine mayCarry_guardWindow ?_
    split
    · exact .varint ptr avail _ _
    · exact .nothing _ _ _
  | decVarlong ptr avail =>
    refine mayCarry_guardWindow ?_
    split
    · exact .varlong ptr avail _ _
    · exact .nothing _ _ _
  | decPos ptr avail =>
    refine mayCarry_guardWindow ?_
    split
    · exact .nothing _ _ _
    · exact .position ptr avail _
  | decPkt ptr avail =>
    refine mayCarry_guardWindow ?_
    split
    · exact .nothing _ _ _
    · split
      · exact .nothing _ _ _
      · split
        · exact .nothing _ _ _
        · exact mayCarry_pktBodyReply _ _ _ _

/-! ## How many bytes are stored (R190) -/

section
variable {e : List Byte} {n : Nat}

theorem storeEncoding_stores_length_le (avail : Nat) (h : e.length ≤ n) :
    (storeEncoding avail e).stores.length ≤ n := by
  unfold storeEncoding
  split
  · exact (List.length_take_le' _ _).trans h
  · exact h

theorem guardWindow_stores_length_le (cfg : Config) (ptr : Addr) (avail : Count) {r : Reply}
    (h : r.stores.length ≤ n) : (guardWindow cfg ptr avail r).stores.length ≤ n := by
  unfold guardWindow
  split
  · exact h
  · exact Nat.zero_le n

/-- A frame that may be sent has at most five bytes before a body of `2^31 - 1` (R132). -/
theorem pktBytes_length_le {o : Word32} {pay : List Byte} (h : pktLength o pay ≤ pktMaxLen) :
    (pktBytes o pay).length ≤ 2 ^ 31 + 4 := by
  have hlength := intSize_le_maxBytes (by decide) (BitVec.ofNat 32 (pktLength o pay))
  simp only [pktBytes, List.length_append, intBytes_length, maxBytes_32, pktLength, pktMaxLen]
    at h hlength ⊢
  omega

end

/-! ## The obligations -/

/-- Settles O29: the count fits the window, and `OK` is answered in good windows only. -/
theorem consumedNeverExceedsAvail : Obligations.ConsumedNeverExceedsAvail := by
  intro i s t r ptr avail hw hexec hrsp
  obtain rfl := exec_response hexec hrsp
  obtain ⟨hshort, hle⟩ := replyOf_countFits s hw
  refine ⟨hshort, hle, fun hok => ?_⟩
  have hfit := window_fits_of_status hw (s := s) (by rw [hok]; exact Status.noConfusion)
  exact (Nat.add_le_add_left hle _).trans hfit

/-- Settles O30: each kind of response is looked at for the fields that it carries. -/
theorem unproducedResultFieldsAreZero : Obligations.UnproducedResultFieldsAreZero := by
  intro i s t r hexec hrsp
  have hcarry : MayCarry i r := exec_response hexec hrsp ▸ replyOf_mayCarry i s
  cases hcarry with
  | nothing _ st n =>
    exact ⟨fun _ => statusRsp_eq_bare st n, by simp [statusRsp], by simp [statusRsp],
      by simp [statusRsp]⟩
  | varint ptr avail n v => simp [okRsp, statusRsp]
  | varlong ptr avail n v => simp [okRsp, statusRsp]
  | position ptr avail v => simp [posRsp, okRsp, statusRsp]
  | packet ptr avail n v pay => simp [okRsp, statusRsp]

/-- Settles O32: an encoder stores no more than its encoding, and the others nothing. -/
theorem storedBytesAreBounded : Obligations.StoredBytesAreBounded := by
  intro i s
  obtain ⟨t, hexec, heff⟩ := exec_effect i s
  refine ⟨t, _, _, hexec, heff, ?_⟩
  cases i with
  | sizeVarint val | sizeVarlong val | decVarint ptr avail | decVarlong ptr avail
  | decPos ptr avail | decPkt ptr avail =>
    rw [replyOf_stores_eq_nil s (by simp [Instr.format])]
    exact le_rfl
  | encVarint val ptr avail | encVarlong val ptr avail =>
    refine guardWindow_stores_length_le _ _ _ (storeEncoding_stores_length_le _ ?_)
    rw [intBytes_length]
    exact intSize_le_maxBytes (by decide) _
  | encPos x y z ptr avail =>
    exact guardWindow_stores_length_le _ _ _
      (storeEncoding_stores_length_le _ (posBytes_length _).le)
  | encPkt val pay ptr avail =>
    refine guardWindow_stores_length_le _ _ _ ?_
    split
    · exact Nat.zero_le _
    · next hlen =>
      exact storeEncoding_stores_length_le _ (pktBytes_length_le (Nat.not_lt.1 hlen))

end Sys2Proof.Machine

/-! PROOFS. The laws of the integer format (spec/40_varint_encoder.md R83) and what follows from them
for the commands: a size command answers the encoder's count, and an encoding that was cut short
does not decode (spec/70_reset_and_hazards.md R188). -/

namespace Sys2Proof.Machine

open Sys2Proof.Safety

/-! ## The bytes of an encoding -/

section
variable {w : Nat} {v : BitVec w} {k : Nat} {b : Byte}

theorem lt_intSize_of_getElem? (h : (intBytes v)[k]? = some b) : k < intSize v := by
  obtain ⟨hk, -⟩ := List.getElem?_eq_some_iff.1 h
  rwa [intBytes_length] at hk

/-- Byte `k` is group `k` and a continuation bit (R82). -/
theorem toNat_of_getElem?_intBytes (h : (intBytes v)[k]? = some b) :
    b.toNat = v.toNat / 2 ^ (7 * k) % 128 + if k + 1 < intSize v then 128 else 0 := by
  rw [intBytes_getElem? v (lt_intSize_of_getElem? h)] at h
  rw [← Option.some.inj h, intByte_toNat]

/-- R83 (b): every byte but the last continues. -/
theorem continues_intBytes_iff (h : (intBytes v)[k]? = some b) :
    continues b ↔ k + 1 < intSize v := by
  have hgroup : v.toNat / 2 ^ (7 * k) % 128 < 128 := Nat.mod_lt _ (by decide)
  rw [continues, toNat_of_getElem?_intBytes h]
  split <;> omega

/-- A value that needs more than `S` bytes has a bit above the first `S` groups (R81). -/
theorem two_pow_le_of_lt_intSize {S : Nat} (hS : 1 ≤ S) (h : S < intSize v) :
    2 ^ (7 * S) ≤ v.toNat :=
  Nat.not_lt.1 fun hlt => absurd ((intSize_le_iff v hS).2 hlt) (Nat.not_le.2 h)

/-- The last byte is all that is left of the value. -/
theorem toNat_last_of_getElem?_intBytes (h : (intBytes v)[k]? = some b) (hlast : intSize v = k + 1) :
    b.toNat = v.toNat / 2 ^ (7 * k) := by
  have hlt : v.toNat < 2 ^ (7 * k) * 128 := by
    have := (intSize_le_iff v (Nat.le_add_left 1 k)).1 hlast.le
    rwa [Nat.mul_succ, Nat.pow_add] at this
  rw [toNat_of_getElem?_intBytes h, if_neg (by omega), Nat.add_zero,
    Nat.mod_eq_of_lt (Nat.div_lt_of_lt_mul hlt)]

/-- R83 (c): the last of several bytes is not zero, or a shorter encoding would do. -/
theorem toNat_last_pos (h : (intBytes v)[k]? = some b) (hlast : intSize v = k + 1) (hk : 1 ≤ k) :
    1 ≤ b.toNat := by
  rw [toNat_last_of_getElem?_intBytes h hlast]
  exact Nat.div_pos (two_pow_le_of_lt_intSize hk (by omega)) (Nat.two_pow_pos _)

theorem getElem?_last_intBytes_ne_zero (h : 1 < intSize v) :
    (intBytes v)[intSize v - 1]? ≠ some 0 := by
  intro hzero
  exact absurd (toNat_last_pos hzero (by omega) (by omega)) (by decide)

/-- R83 (d): a value of one group is its own encoding. -/
theorem intBytes_eq_singleton (h : intSize v = 1) : intBytes v = [BitVec.ofNat 8 v.toNat] := by
  have hlt : v.toNat < 128 := (intSize_le_iff v le_rfl).1 h.le
  refine isEncoding_unique (isEncoding_intBytes v) ⟨h.symm, fun k hk => ?_⟩
  obtain rfl : k = 0 := by omega
  simp [h, Nat.mod_eq_of_lt hlt]

/-- R83 (e): a negative value has its top bit set, so it takes every byte there is. -/
theorem intSize_eq_maxBytes_of_msb (hw : 1 ≤ w) (h : v.msb = true) : intSize v = maxBytes w := by
  refine le_antisymm (intSize_le_maxBytes hw v) (Nat.not_lt.1 fun hlt => ?_)
  have hbits : 7 * intSize v ≤ w - 1 := by
    unfold maxBytes groupBits at hlt
    omega
  have htop : 2 ^ (w - 1) ≤ v.toNat := by simpa [BitVec.msb_eq_decide] using h
  have hfits := (intSize_le_iff v (intSize_pos v)).1 le_rfl
  exact absurd (htop.trans_lt hfits) (Nat.not_lt.2 (Nat.pow_le_pow_right (by decide) hbits))

/-- R83 (e): the byte that only the longest encodings have holds the bits left of the value, and is
not zero. -/
theorem toNat_of_getElem?_maxBytes (h : (intBytes v)[k]? = some b) (hmax : maxBytes w = k + 1)
    (hw : 1 ≤ w) (hk : 1 ≤ k) : b.toNat = v.toNat / 2 ^ (7 * k) ∧ 1 ≤ b.toNat := by
  have hlast : intSize v = k + 1 := by
    have := lt_intSize_of_getElem? h
    have := intSize_le_maxBytes hw v
    omega
  exact ⟨toNat_last_of_getElem?_intBytes h hlast, toNat_last_pos h hlast hk⟩

/-! ## An encoding that was cut short -/

/-- A window with a proper part of an encoding holds continuing bytes only. -/
theorem decodeInt_window_intBytes_short {m : Memory} {ptr : Addr} {avail : Count} (hw : 1 ≤ w)
    (hshort : avail.toNat < intSize v)
    (hm : ∀ k, k < avail.toNat → (intBytes v)[k]? = some (m.read (ptr.toNat + k))) :
    decodeInt w (windowInt w m ptr avail) = .err .bufferTooSmall avail.toNat :=
  decodeInt_window_short w (hshort.trans_le (intSize_le_maxBytes hw v)) fun k hk =>
    (continues_intBytes_iff (hm k hk)).2 (by omega)

/-- An encoder that ran out of room has written as much as its window holds (R155). -/
theorem encoding_cut_of_bufferTooSmall {i : Instr} {s t : State} {r : Rsp} {ptr : Addr}
    {avail : Count} {e : List Byte} (hwin : i.window? = some (ptr, avail))
    (hr : ptr.toNat + avail.toNat ≤ s.cfg.top → replyOf i s = storeEncoding avail.toNat e)
    (hexec : exec i s = .next t) (hrsp : t.responses = s.responses ++ [r])
    (hst : r.status = .bufferTooSmall) :
    ptr.toNat + avail.toNat ≤ s.cfg.top ∧ avail.toNat < e.length ∧
      ∀ k, k < avail.toNat → e[k]? = some (t.mem.read (ptr.toNat + k)) := by
  obtain rfl := exec_response hexec hrsp
  have hfit := window_fits_of_status hwin (s := s) (by rw [hst]; exact Status.noConfusion)
  have hshort : avail.toNat < e.length := by
    by_contra hroom
    rw [hr hfit, storeEncoding_room (Nat.not_lt.1 hroom)] at hst
    exact Status.noConfusion hst
  obtain ⟨t', ht', -, hinside, -⟩ := exec_effect i s
  obtain rfl := Host.Outcome.next.inj (hexec.symm.trans ht')
  rw [hr hfit, storeEncoding_short hshort, baseOf_of_window hwin] at hinside
  refine ⟨hfit, hshort, fun k hk => ?_⟩
  rw [← hinside k (by simp [hk, hk.trans hshort]), List.getElem?_take_of_lt hk]

/-! ## Two commands about one value, at any width -/

variable {i j : Instr} {s t : State} {r : Rsp} {ptr : Addr} {avail : Count}
  (hwin : i.window? = some (ptr, avail))
  (henc : ptr.toNat + avail.toNat ≤ s.cfg.top →
    replyOf i s = storeEncoding avail.toNat (intBytes v))
  (hexec : exec i s = .next t) (hrsp : t.responses = s.responses ++ [r])
include hwin henc hexec hrsp

/-- `j` decodes the window in which the encoder `i` of `v` ran out of room. -/
theorem exec_decode_of_encode_short {result : BitVec w → Word64} (hw : 1 ≤ w)
    (hdec : ptr.toNat + avail.toNat ≤ t.cfg.top →
      replyOf j t = decodedReply result (decodeInt w (windowInt w t.mem ptr avail)))
    (hst : r.status = .bufferTooSmall) :
    exec j t = .next (Answered t (bare .bufferTooSmall avail.toNat)) := by
  obtain ⟨hfit, hshort, hbytes⟩ := encoding_cut_of_bufferTooSmall hwin henc hexec hrsp hst
  rw [intBytes_length] at hshort
  have hreply := hdec (by rwa [exec_cfg hexec])
  rw [decodeInt_window_intBytes_short hw hshort hbytes] at hreply
  exact exec_answered hreply

/-- `j` answers the size of the value that the encoder `i` has counted. -/
theorem size_consumed_eq_of_encode_ok {u : State} {q : Rsp}
    (hsize : replyOf j s = answer (okRsp (intSize v))) (hexec' : exec j s = .next u)
    (hrsp' : u.responses = s.responses ++ [q]) (hok : r.status = .ok) :
    q.consumed = r.consumed := by
  obtain ⟨hcount, -⟩ := encoding_written_of_ok hwin henc hexec hrsp hok
  rw [intBytes_length] at hcount
  obtain rfl := exec_response hexec' hrsp'
  rw [hsize, answer_rsp, ← hcount]
  exact (BitVec.ofNat_toNat _ _).trans (BitVec.setWidth_eq _)

end

/-! ## The obligations -/

/-- Settles O33: the laws hold at every width; the last possible byte is what is left of 32 bits after
four groups, and of 64 bits after nine. -/
theorem encodedIntegersAreShortest : Obligations.EncodedIntegersAreShortest := by
  refine ⟨fun v => ⟨intBytes_length v, fun _ _ => continues_intBytes_iff,
      getElem?_last_intBytes_ne_zero, intBytes_eq_singleton,
      intSize_eq_maxBytes_of_msb (by decide), fun b hb => ?fifth⟩,
    fun v => ⟨intBytes_length v, fun _ _ => continues_intBytes_iff,
      getElem?_last_intBytes_ne_zero, intBytes_eq_singleton,
      intSize_eq_maxBytes_of_msb (by decide), fun b hb => ?tenth⟩, ?nine⟩
  case fifth =>
    obtain ⟨hleft, hpos⟩ := toNat_of_getElem?_maxBytes hb rfl (by decide) (by decide)
    have := v.isLt
    omega
  case tenth =>
    obtain ⟨hleft, hpos⟩ := toNat_of_getElem?_maxBytes hb rfl (by decide) (by decide)
    have := v.isLt
    exact BitVec.eq_of_toNat_eq (by change b.toNat = 1; omega)
  case nine =>
    refine le_antisymm ((intSize_le_iff _ (by decide)).2 (by decide)) (Nat.not_lt.1 fun hlt => ?_)
    exact absurd ((intSize_le_iff _ (by decide)).1 (Nat.le_of_lt_succ hlt)) (by decide)

/-- Settles O34: at each width, both commands count the size of the operand. -/
theorem sizeAgreesWithEncoder : Obligations.SizeAgreesWithEncoder := by
  rintro val ptr avail s t u r q (⟨henc, hsize⟩ | ⟨henc, hsize⟩) hr hq hok
  · exact size_consumed_eq_of_encode_ok rfl (replyOf_encVarint val) henc hr
      (replyOf_sizeVarint val s) hsize hq hok
  · exact size_consumed_eq_of_encode_ok rfl (replyOf_encVarlong val) henc hr
      (replyOf_sizeVarlong val s) hsize hq hok

/-- Settles O38: at each width, what was cut short continues to the end of the window. -/
theorem truncatedIntegerDoesNotDecode : Obligations.TruncatedIntegerDoesNotDecode := by
  intro val ptr avail s t r hr hst
  exact ⟨fun henc => exec_decode_of_encode_short rfl (replyOf_encVarint val) henc hr (by decide)
      replyOf_decVarint hst,
    fun henc => exec_decode_of_encode_short rfl (replyOf_encVarlong val) henc hr (by decide)
      replyOf_decVarlong hst⟩

end Sys2Proof.Machine

/-! PROOFS. Reading and writing a Position are inverse (spec/42_bit_field_packer.md R117): the bytes
and the word determine each other, and so do the word and its three fields, each of which loses
nothing but the bits above its width. -/

namespace Sys2Proof.Machine

open Sys2Proof.Safety

/-! ## The word and its bytes (R118) -/

/-- The bytes of the word that 8 bytes spell are those bytes. -/
theorem byte_of_bigEndian (f : Nat → Byte) {k : Nat} (hk : k < 8) :
    BitVec.ofNat 8 (bigEndian f / 2 ^ (8 * (7 - k))) = f k := by
  apply BitVec.eq_of_toNat_eq
  have h0 := (f 0).isLt; have h1 := (f 1).isLt; have h2 := (f 2).isLt; have h3 := (f 3).isLt
  have h4 := (f 4).isLt; have h5 := (f 5).isLt; have h6 := (f 6).isLt; have h7 := (f 7).isLt
  rw [BitVec.toNat_ofNat]
  unfold bigEndian
  interval_cases k <;> omega

/-- The word read from a window has the bytes of the window. -/
theorem posBytes_posWordOf_window (s : State) (ptr : Addr) {k : Nat} (hk : k < 8) :
    (posBytes (posWordOf (windowSeq s.mem ptr 0 posSize)))[k]? = some (windowByte s ptr k) := by
  obtain ⟨-, hbytes⟩ := isBigEndian_posBytes (posWordOf (windowSeq s.mem ptr 0 posSize))
  rw [hbytes k hk, posWordOf_window, byte_of_bigEndian _ hk]

theorem posBytes_getElem? (v : Word64) {k : Nat} (hk : k < 8) :
    (posBytes v)[k]? = some (v.extractLsb' (8 * (7 - k)) 8) := by
  simp [posBytes, posSize, hk]

/-- Bit `i` of a word is bit `i % 8` of one of its bytes, so the bytes determine the word. -/
theorem eq_of_posBytes_eq {v w : Word64}
    (h : ∀ k, k < 8 → (posBytes v)[k]? = (posBytes w)[k]?) : v = w := by
  apply BitVec.eq_of_getLsbD_eq
  intro i hi
  have hk : 7 - i / 8 < 8 := by omega
  have hbyte := h _ hk
  rw [posBytes_getElem? v hk, posBytes_getElem? w hk] at hbyte
  have hbit := congrArg (·.getLsbD (i % 8)) (Option.some.inj hbyte)
  simpa [BitVec.getLsbD_extractLsb', Nat.mod_lt, show 8 * (7 - (7 - i / 8)) + i % 8 = i by omega]
    using hbit

/-- A window with the bytes of a word is read as the word. -/
theorem posWordOf_window_eq {s : State} {ptr : Addr} {v : Word64}
    (h : ∀ k, k < 8 → (posBytes v)[k]? = some (windowByte s ptr k)) :
    posWordOf (windowSeq s.mem ptr 0 posSize) = v :=
  eq_of_posBytes_eq fun k hk => (posBytes_posWordOf_window s ptr hk).trans (h k hk).symm

/-! ## The word and its fields (R112 to R114) -/

/-- Sign extension keeps all bits of what is extended. -/
theorem setWidth_signExtend {k n m : Nat} (a : BitVec k) (h : m ≤ n) :
    (a.signExtend n).setWidth m = a.signExtend m := by
  apply BitVec.eq_of_getLsbD_eq
  intro i hi
  simp only [BitVec.getLsbD_setWidth, BitVec.getLsbD_signExtend, hi, hi.trans_le h, decide_true,
    Bool.true_and]

/-- What a field of width `k` keeps of a container: its low `k` bits, read as a signed number. -/
def narrowed (k : Nat) (x : Word32) : Word32 :=
  (x.setWidth k).signExtend 32

/-- The field of a word in its 32-bit container (R113, R116). -/
theorem fieldExtract_container (v : Word64) {w o : Nat} (hw : 1 ≤ w) (h : w + o ≤ 64) :
    (fieldExtract v w o).setWidth 32 = (v.extractLsb' o w).signExtend 32 := by
  rw [fieldExtract_eq hw h, setWidth_signExtend _ (by decide)]

theorem posRsp_eq_signExtend (v : Word64) : posRsp v = { bare .ok 8 with
    x := (v.extractLsb' 38 26).signExtend 32
    y := (v.extractLsb' 26 12).signExtend 32
    z := (v.extractLsb' 0 26).signExtend 32 } := by
  rw [← fieldExtract_container v (by decide) (by decide),
    ← fieldExtract_container v (by decide) (by decide),
    ← fieldExtract_container v (by decide) (by decide)]
  rfl

/-- The slots of a word of three (R111). -/
theorem extractLsb'_slots (a : BitVec 26) (b : BitVec 12) (c : BitVec 26) :
    (a ++ b ++ c).extractLsb' 38 26 = a ∧ (a ++ b ++ c).extractLsb' 26 12 = b ∧
      (a ++ b ++ c).extractLsb' 0 26 = c := by
  refine ⟨?_, ?_, BitVec.extractLsb'_append_eq_right⟩
  · rw [BitVec.extractLsb'_append_eq_of_le (by decide),
      BitVec.extractLsb'_append_eq_of_le (by decide)]
    exact BitVec.extractLsb'_eq_self
  · rw [BitVec.extractLsb'_append_eq_of_le (by decide)]
    exact BitVec.extractLsb'_append_eq_right

/-- The word put together from its slots. -/
theorem append_extractLsb'_slots (v : Word64) :
    (v.extractLsb' 38 26 ++ v.extractLsb' 26 12 ++ v.extractLsb' 0 26 : BitVec 64) = v := by
  have hhigh : v.extractLsb' 38 26 ++ v.extractLsb' 26 12 = v.extractLsb' 26 (26 + 12) :=
    BitVec.extractLsb'_append_extractLsb'_eq_extractLsb' rfl
  have hall : v.extractLsb' 26 (26 + 12) ++ v.extractLsb' 0 26 = v.extractLsb' 0 (26 + 12 + 26) :=
    BitVec.extractLsb'_append_extractLsb'_eq_extractLsb' rfl
  rw [hhigh]
  exact hall.trans BitVec.extractLsb'_eq_self

/-- Each field is read back from its own slot, whatever the others hold (R117 (c)). -/
theorem posRsp_posWord (x y z : Word32) : posRsp (posWord x y z) =
    { bare .ok 8 with x := narrowed 26 x, y := narrowed 12 y, z := narrowed 26 z } := by
  obtain ⟨hx, hy, hz⟩ := extractLsb'_slots (x.setWidth 26) (y.setWidth 12) (z.setWidth 26)
  rw [posRsp_eq_signExtend, posWord_eq_append, hx, hy, hz]
  rfl

/-- The fields of a word, put back into their slots, are the word (R117 (b)). -/
theorem posWord_posRsp (v : Word64) : posWord (posRsp v).x (posRsp v).y (posRsp v).z = v := by
  rw [posRsp_eq_signExtend, posWord_eq_append]
  simp only [setWidth_signExtend _ (show 26 ≤ 32 by decide),
    setWidth_signExtend _ (show 12 ≤ 32 by decide), BitVec.signExtend_eq]
  exact append_extractLsb'_slots v

/-! ## What a field keeps, as a number -/

section
variable {k : Nat} (x : Word32)

theorem narrowed_toInt (hk : k ≤ 32) : (narrowed k x).toInt = x.toInt.bmod (2 ^ k) := by
  rw [narrowed, BitVec.toInt_signExtend_of_le hk, BitVec.toInt_setWidth,
    BitVec.toInt_eq_toNat_bmod, Int.bmod_bmod_of_dvd (Nat.pow_dvd_pow 2 hk)]

/-- It is congruent to the number given. -/
theorem narrowed_congr (hk : k ≤ 32) : ((narrowed k x).toInt - x.toInt) % 2 ^ k = 0 := by
  rw [narrowed_toInt x hk]
  have h := Int.emod_eq_emod_iff_emod_sub_eq_zero.1 (Int.bmod_emod (x := x.toInt) (m := 2 ^ k))
  simpa using h

/-- It is in the field's range. -/
theorem narrowed_range (hk : k + 1 ≤ 32) :
    -2 ^ k ≤ (narrowed (k + 1) x).toInt ∧ (narrowed (k + 1) x).toInt < 2 ^ k := by
  rw [narrowed_toInt x hk]
  have hlow := Int.le_bmod (x := x.toInt) (m := 2 ^ (k + 1)) (Nat.two_pow_pos _)
  have hhigh := Int.bmod_lt (x := x.toInt) (m := 2 ^ (k + 1)) (Nat.two_pow_pos _)
  push_cast [pow_succ] at hlow hhigh ⊢
  omega

/-- A number of the range is kept as it is. -/
theorem narrowed_eq_self (hk : k + 1 ≤ 32) (hlow : -2 ^ k ≤ x.toInt) (hhigh : x.toInt < 2 ^ k) :
    narrowed (k + 1) x = x := by
  apply BitVec.eq_of_toInt_eq
  rw [narrowed_toInt x hk]
  apply Int.bmod_eq_of_le <;> push_cast [pow_succ] <;> omega

end

/-! ## The two commands -/

section
variable {s t : State} {ptr : Addr} {avail : Count}

/-- `ENC_POS` in a window of 8 bytes or more writes the bytes of the word (R115). -/
theorem posBytes_written {x y z : Word32} (hroom : 8 ≤ avail.toNat)
    (hfit : ptr.toNat + avail.toNat ≤ s.cfg.top) (hexec : exec (.encPos x y z ptr avail) s = .next t)
    {k : Nat} (hk : k < 8) : (posBytes (posWord x y z))[k]? = some (windowByte t ptr k) := by
  obtain ⟨t', ht', -, hinside, -⟩ := exec_effect (.encPos x y z ptr avail) s
  obtain rfl := Host.Outcome.next.inj (hexec.symm.trans ht')
  rw [replyOf_encPos x y z hfit, storeEncoding_room (by rwa [posBytes_length])] at hinside
  exact hinside k (by rwa [posBytes_length])

/-- `DEC_POS` after `ENC_POS` at the same address answers what the fields have kept. -/
theorem exec_decPos_of_encPos {x y z : Word32} {avail' : Count} (hroom : 8 ≤ avail.toNat)
    (hroom' : 8 ≤ avail'.toNat) (hfit : ptr.toNat + avail.toNat ≤ s.cfg.top)
    (hfit' : ptr.toNat + avail'.toNat ≤ s.cfg.top)
    (hexec : exec (.encPos x y z ptr avail) s = .next t) :
    exec (.decPos ptr avail') t = .next (Answered t
      { bare .ok 8 with x := narrowed 26 x, y := narrowed 12 y, z := narrowed 26 z }) := by
  have hreply := replyOf_decPos_room (s := t) (by rwa [exec_cfg hexec]) hroom'
  rw [posWordOf_window_eq fun k hk => posBytes_written hroom hfit hexec hk, posRsp_posWord] at hreply
  exact exec_answered hreply

end

/-! ## The obligations -/

/-- Settles O39: each field keeps the congruent number of its range. -/
theorem positionFieldsAliasAlone : Obligations.PositionFieldsAliasAlone := by
  intro x y z ptr avail avail' s t hroom hroom' hfit hfit' hexec
  obtain ⟨hxlow, hxhigh⟩ := narrowed_range (k := 25) x (by decide)
  obtain ⟨hylow, hyhigh⟩ := narrowed_range (k := 11) y (by decide)
  obtain ⟨hzlow, hzhigh⟩ := narrowed_range (k := 25) z (by decide)
  exact ⟨_, exec_decPos_of_encPos hroom hroom' hfit hfit' hexec, rfl,
    narrowed_congr x (by decide), hxlow, hxhigh, narrowed_congr y (by decide), hylow, hyhigh,
    narrowed_congr z (by decide), hzlow, hzhigh⟩

/-- Settles O40: numbers of the fields' ranges are kept as they are. -/
theorem positionRoundTripInRange : Obligations.PositionRoundTripInRange := by
  intro x y z ptr avail avail' s t hroom hroom' hfit hfit' hxlow hxhigh hylow hyhigh hzlow hzhigh
    hexec
  have hdec := exec_decPos_of_encPos hroom hroom' hfit hfit' hexec
  rwa [narrowed_eq_self (k := 25) x (by decide) hxlow hxhigh,
    narrowed_eq_self (k := 11) y (by decide) hylow hyhigh,
    narrowed_eq_self (k := 25) z (by decide) hzlow hzhigh] at hdec

/-- Settles O41: the fields of the word that the 8 bytes spell make up that word again. -/
theorem positionBytesRoundTrip : Obligations.PositionBytesRoundTrip := by
  intro ptr ptr' avail avail' s t u v r hroom hroom' hfit hfit' hdec hrsp henc k hk
  have hr := exec_response hdec hrsp
  rw [replyOf_decPos_room hfit hroom, answer_rsp] at hr
  have hwritten := posBytes_written hroom' hfit' henc hk
  rw [hr, posWord_posRsp, posBytes_posWordOf_window s ptr hk] at hwritten
  exact (Option.some.inj hwritten).symm

end Sys2Proof.Machine

/-! PROOFS. A frame and its parts (spec/43_packet_framer.md R130, R138): the frame that `ENC_PKT`
writes is taken apart again by `DEC_PKT`, and is what two `ENC_VARINT` commands and a copy of the
payload write. -/

namespace Sys2Proof.Machine

open Sys2Proof.Safety

/-! ## A frame that may be sent -/

section
variable {o : Word32} {pay : List Byte}

/-- The length field of a frame: `L` as a 32-bit vector (R130, R132). -/
def lengthField (o : Word32) (pay : List Byte) : Word32 :=
  BitVec.ofNat 32 (pktLength o pay)

theorem pktBytes_eq : pktBytes o pay = intBytes (lengthField o pay) ++ (intBytes o ++ pay) :=
  List.append_assoc _ _ _

/-- The body of a frame is as long as its length field says. -/
theorem body_length : (intBytes o ++ pay).length = pktLength o pay := by
  simp [pktLength]

theorem pktBytes_length :
    (pktBytes o pay).length = intSize (lengthField o pay) + pktLength o pay := by
  rw [pktBytes_eq, List.length_append, body_length, intBytes_length]

variable (hlen : pktLength o pay ≤ pktMaxLen)
include hlen

/-- A length of at most `2^31 - 1` fits its field. -/
theorem lengthField_toNat : (lengthField o pay).toNat = pktLength o pay :=
  Nat.mod_eq_of_lt (hlen.trans_lt (by decide))

/-- And is not read as a negative number (R135). -/
theorem lengthField_nonneg : 0 ≤ (lengthField o pay).toInt := by
  rw [BitVec.toInt_eq_toNat_of_lt]
  · exact Int.natCast_nonneg _
  · rw [lengthField_toNat hlen]
    unfold pktMaxLen at hlen
    omega

end

/-- A complete body is answered with its opcode and its payload (R135, step 4). -/
theorem pktBodyReply_append (n : Nat) (o : Word32) (pay : List Byte) :
    pktBodyReply n (intBytes o ++ pay) =
      answer { okRsp (n + pktLength o pay) with val := result32 o, pay := pay } := by
  have hdrop : (intBytes o ++ pay).drop (intSize o) = pay := List.drop_left' (intBytes_length o)
  simp only [pktBodyReply, decodeInt_intBytes_append (show 1 ≤ 32 by decide), body_length, hdrop]

/-! ## `ENC_PKT` that answered `OK` -/

/-- It was given a length that a frame can carry (R132). -/
theorem pktLength_le_of_ok {val : Word64} {pay : List Byte} {ptr : Addr} {avail : Count}
    {s : State} (hok : (replyOf (.encPkt val pay ptr avail) s).rsp.status = .ok) :
    pktLength (operand32 val) pay ≤ pktMaxLen := by
  by_contra hlong
  have hfit := window_fits_of_status (i := .encPkt val pay ptr avail) (s := s) rfl
    (by rw [hok]; exact Status.noConfusion)
  rw [replyOf_encPkt_tooLong hfit (Nat.not_le.1 hlong)] at hok
  exact Status.noConfusion hok

/-- An encoder that answered `OK` has stored its encoding over the old memory. -/
theorem mem_eq_of_ok {i : Instr} {s t : State} {r : Rsp} {ptr : Addr} {avail : Count}
    {e : List Byte} (hwin : i.window? = some (ptr, avail))
    (hr : ptr.toNat + avail.toNat ≤ s.cfg.top → replyOf i s = storeEncoding avail.toNat e)
    (hexec : exec i s = .next t) (hrsp : t.responses = s.responses ++ [r]) (hok : r.status = .ok) :
    t.mem = s.mem.writeSeq ptr.toNat e ∧ r.consumed.toNat = e.length := by
  obtain ⟨hcount, -⟩ := encoding_written_of_ok hwin hr hexec hrsp hok
  refine ⟨?_, hcount⟩
  obtain rfl := exec_response hexec hrsp
  have hfit := window_fits_of_status hwin (s := s) (by rw [hok]; exact Status.noConfusion)
  have hroom : e.length ≤ avail.toNat := hcount ▸ (replyOf_countFits s hwin).2
  obtain rfl := Host.Outcome.next.inj (hexec.symm.trans (exec_eq_complete i s))
  rw [complete_mem, hr hfit, storeEncoding_room hroom, baseOf_of_window hwin]

/-! ## Taking a frame apart -/

section
variable {s : State} {ptr : Addr} {avail : Count} {o : Word32} {pay : List Byte}
  (hframe : ∀ k, k < (pktBytes o pay).length →
    (pktBytes o pay)[k]? = some (s.mem.read (ptr.toNat + k)))
include hframe

/-- The bytes of the length field come first. -/
theorem lengthField_in_window {k : Nat} (hk : k < intSize (lengthField o pay)) :
    (intBytes (lengthField o pay))[k]? = some (s.mem.read (ptr.toNat + k)) := by
  rw [← hframe k (by rw [pktBytes_length]; omega), pktBytes_eq,
    List.getElem?_append_left (by rwa [intBytes_length])]

/-- The body follows it. -/
theorem body_in_window :
    windowSeq s.mem ptr (intSize (lengthField o pay)) (pktLength o pay) = intBytes o ++ pay := by
  apply List.ext_getElem?
  intro k
  by_cases hk : k < pktLength o pay
  · rw [windowSeq_getElem? _ _ _ _ k (by rwa [windowSeq_length]),
      ← hframe _ (by rw [pktBytes_length]; omega), pktBytes_eq,
      List.getElem?_append_right (by rw [intBytes_length]; omega), intBytes_length,
      Nat.add_sub_cancel_left]
  · rw [List.getElem?_eq_none (by rw [windowSeq_length]; omega),
      List.getElem?_eq_none (by rw [body_length]; omega)]

variable (hlen : pktLength o pay ≤ pktMaxLen) (hfit : ptr.toNat + avail.toNat ≤ s.cfg.top)
include hlen hfit

/-- A window that holds the whole frame. -/
theorem replyOf_decPkt_frame (hroom : (pktBytes o pay).length ≤ avail.toNat) :
    replyOf (.decPkt ptr avail) s =
      answer { okRsp (pktBytes o pay).length with val := result32 o, pay := pay } := by
  rw [pktBytes_length] at hroom ⊢
  have hlength := decodeInt_window_intBytes (avail := avail) (by decide) (by omega)
    fun k hk => lengthField_in_window hframe hk
  rw [replyOf_decPkt_body hfit hlength (lengthField_nonneg hlen)
      (by rwa [lengthField_toNat hlen]), lengthField_toNat hlen,
    body_in_window hframe, pktBodyReply_append]

/-- A window that ends inside the frame: in the length field, or behind it. -/
theorem replyOf_decPkt_cut (hshort : avail.toNat < (pktBytes o pay).length) :
    replyOf (.decPkt ptr avail) s = fail .bufferTooSmall avail.toNat := by
  rw [pktBytes_length] at hshort
  rcases Nat.lt_or_ge avail.toNat (intSize (lengthField o pay)) with hcut | hwhole
  · exact replyOf_decPkt_length_err hfit (decodeInt_window_intBytes_short (by decide) hcut
      fun k hk => lengthField_in_window hframe (hk.trans hcut))
  · have hlength := decodeInt_window_intBytes (avail := avail) (by decide) hwhole
      fun k hk => lengthField_in_window hframe hk
    exact replyOf_decPkt_truncated hfit hlength (lengthField_nonneg hlen)
      (by rwa [lengthField_toNat hlen])

end

/-! ## Writing a frame part by part -/

/-- A sequence of writes in two parts. -/
theorem writeSeq_append (m : Memory) (a : Nat) (bs cs : List Byte) :
    m.writeSeq a (bs ++ cs) = (m.writeSeq a bs).writeSeq (a + bs.length) cs := by
  induction bs generalizing m a with
  | nil => rfl
  | cons b bs ih =>
    rw [List.cons_append, Memory.writeSeq, ih, Memory.writeSeq, List.length_cons,
      Nat.add_assoc, Nat.add_comm 1]

/-- The operand of the caller's first `ENC_VARINT` is the length field of the frame. -/
theorem operand32_eq_lengthField {o : Word32} {len : Word64} {pay : List Byte}
    (hlen : pktLength o pay ≤ pktMaxLen) (hsize : IsSize o.toNat (len.toNat - pay.length))
    (hpay : pay.length ≤ len.toNat) : operand32 len = lengthField o pay := by
  have hL : len.toNat = pktLength o pay := by
    have := isSize_unique hsize (isSize_intSize o)
    unfold pktLength
    omega
  apply BitVec.eq_of_toNat_eq
  rw [operand32_toNat, lengthField_toNat hlen, hL]
  exact Nat.mod_eq_of_lt (hlen.trans_lt (by decide))

/-! ## The obligations -/

/-- Settles O42: the frame lies in memory, and a window holds all of it or a part. -/
theorem packetRoundTrip : Obligations.PacketRoundTrip := by
  intro val pay ptr avail avail' s t r hexec hrsp hok hfit
  have hlen : pktLength (operand32 val) pay ≤ pktMaxLen :=
    pktLength_le_of_ok (by rwa [← exec_response hexec hrsp])
  obtain ⟨hcount, hframe⟩ := encoding_written_of_ok rfl (fun h => replyOf_encPkt h hlen)
    hexec hrsp hok
  have hfit' : ptr.toNat + avail'.toNat ≤ t.cfg.top := by rwa [exec_cfg hexec]
  rw [hcount, ← operand32_eq_setWidth]
  exact ⟨fun hroom => exec_answered (replyOf_decPkt_frame hframe hlen hfit' hroom),
    fun hshort => exec_answered (replyOf_decPkt_cut hframe hlen hfit' hshort)⟩

/-- Settles O43: both memories are the old one with the length field, the opcode and the payload
written one after another. -/
theorem frameIsTwoVarintsAndThePayload : Obligations.FrameIsTwoVarintsAndThePayload := by
  intro val len pay ptr ptr1 avail a0 a1 s t u v r q p hpkt hr hrok hsize hpay hlength hq hqok
    hptr1 hopcode hp hpok a
  have hlen : pktLength (operand32 val) pay ≤ pktMaxLen :=
    pktLength_le_of_ok (by rwa [← exec_response hpkt hr])
  rw [← operand32_toNat] at hsize
  obtain ⟨hmemT, -⟩ := mem_eq_of_ok rfl (fun h => replyOf_encPkt h hlen) hpkt hr hrok
  obtain ⟨hmemU, hcountU⟩ := mem_eq_of_ok rfl (replyOf_encVarint len) hlength hq hqok
  obtain ⟨hmemV, hcountV⟩ := mem_eq_of_ok rfl (replyOf_encVarint val) hopcode hp hpok
  rw [operand32_eq_lengthField hlen hsize hpay] at hmemU hcountU
  rw [hmemT, hmemV, hmemU, hcountV, hptr1, hcountU, pktBytes_eq, writeSeq_append, writeSeq_append]

end Sys2Proof.Machine

/-! PROOFS. What a decode command's `OK` depends on (spec/10_state.md R30, spec/41_varint_decoder.md
R101, spec/42_bit_field_packer.md R116, spec/43_packet_framer.md R137 (e)): the bytes that it
counted, wherever they lie and whatever follows them. -/

namespace Sys2Proof.Machine

open Sys2Proof.Safety

/-! ## Integers -/

theorem readSeq_take (m : Memory) (a : Nat) {k n : Nat} (h : k ≤ n) :
    (m.readSeq a n).take k = m.readSeq a k := by
  induction k generalizing a n with
  | zero => rfl
  | succ k ih =>
    obtain ⟨n, rfl⟩ : ∃ j, n = j + 1 := ⟨n - 1, by omega⟩
    simp only [Memory.readSeq, List.take_succ_cons, ih (a + 1) (Nat.le_of_succ_le_succ h)]

theorem windowInt_take {w : Nat} (m : Memory) (ptr : Addr) {avail : Count} {n : Nat}
    (hmax : n ≤ maxBytes w) (hn : n ≤ avail.toNat) :
    (windowInt w m ptr avail).take n = windowSeq m ptr 0 n :=
  readSeq_take m _ (Nat.le_min.2 ⟨hn, hmax⟩)

section
variable {s s' : State} {ptr q : Addr} {avail avail' : Count}

/-- Any other window that begins with the bytes of a value holds the same value (R106). -/
theorem SameWindowBytes.decodeInt_eq {w n : Nat} {v : BitVec w} {count : Count}
    (h : SameWindowBytes s s' ptr q count)
    (hd : decodeInt w (windowInt w s.mem ptr avail) = .ok v n) (hcount : n ≤ count.toNat)
    (hn : n ≤ avail'.toNat) : decodeInt w (windowInt w s'.mem q avail') = .ok v n := by
  obtain ⟨hmax, hle⟩ := le_of_decodeInt_window_ok hd
  refine decodeInt_ok_of_take_eq hd ?_
  rw [windowInt_take _ _ hmax hn, windowInt_take _ _ hmax hle, h.windowSeq_eq (by omega)]

/-! ## Replies -/

/-- The reply `ρ'` to another window is `ρ`, if that one is `OK` and the other window begins with the
bytes that it counted. -/
def CarriesOver (s s' : State) (ptr q : Addr) (avail' : Count) (ρ ρ' : Reply) : Prop :=
  ρ.rsp.status = .ok → ρ.rsp.consumed.toNat ≤ avail'.toNat →
    SameWindowBytes s s' ptr q ρ.rsp.consumed → ρ' = ρ

theorem decodedReply_carriesOver {w : Nat} (result : BitVec w → Word64) :
    CarriesOver s s' ptr q avail' (decodedReply result (decodeInt w (windowInt w s.mem ptr avail)))
      (decodedReply result (decodeInt w (windowInt w s'.mem q avail'))) := by
  intro hok hcount hsame
  cases hd : decodeInt w (windowInt w s.mem ptr avail) with
  | err st c =>
    rw [hd] at hok
    rcases decodeInt_err_status hd with rfl | rfl <;> cases hok
  | ok v n =>
    have hconsumed : (okRsp n).consumed.toNat = n :=
      statusRsp_consumed (le_of_decodeInt_window_ok hd).2
    rw [hd] at hcount hsame
    rw [SameWindowBytes.decodeInt_eq hsame hd hconsumed.ge (hconsumed ▸ hcount)]

theorem decPos_carriesOver (hfit : ptr.toNat + avail.toNat ≤ s.cfg.top)
    (hfit' : q.toNat + avail'.toNat ≤ s'.cfg.top) :
    CarriesOver s s' ptr q avail' (replyOf (.decPos ptr avail) s)
      (replyOf (.decPos q avail') s') := by
  intro hok hcount hsame
  rcases Nat.lt_or_ge avail.toNat 8 with hshort | hroom
  · rw [replyOf_decPos_short hfit hshort] at hok
    cases hok
  · rw [replyOf_decPos_room hfit hroom] at hcount hsame ⊢
    rw [replyOf_decPos_room hfit' hcount, SameWindowBytes.windowSeq_eq hsame le_rfl]

/-- A frame's `OK` counts its length field and its whole body (R135). -/
theorem pktBodyReply_consumed_of_ok {n : Nat} {body : List Byte}
    (hok : (pktBodyReply n body).rsp.status = .ok) :
    (pktBodyReply n body).rsp.consumed = BitVec.ofNat 64 (n + body.length) := by
  unfold pktBodyReply at hok ⊢
  split at hok
  · rfl
  · cases hok
  · cases hok

theorem decPkt_carriesOver (hfit : ptr.toNat + avail.toNat ≤ s.cfg.top)
    (hfit' : q.toNat + avail'.toNat ≤ s'.cfg.top) :
    CarriesOver s s' ptr q avail' (replyOf (.decPkt ptr avail) s)
      (replyOf (.decPkt q avail') s') := by
  intro hok hcount hsame
  cases hd : decodeInt 32 (windowInt 32 s.mem ptr avail) with
  | err st c =>
    rw [replyOf_decPkt_length_err hfit hd] at hok
    rcases decodeInt_err_status hd with rfl | rfl <;> cases hok
  | ok l n =>
    have hpos : 0 ≤ l.toInt := by
      by_contra hneg
      rw [replyOf_decPkt_negative hfit hd (Int.not_le.1 hneg)] at hok
      cases hok
    have hroom : n + l.toNat ≤ avail.toNat := by
      by_contra hshort
      rw [replyOf_decPkt_truncated hfit hd hpos (Nat.not_le.1 hshort)] at hok
      cases hok
    rw [replyOf_decPkt_body hfit hd hpos hroom] at hok hcount hsame ⊢
    have hconsumed : (pktBodyReply n (windowSeq s.mem ptr n l.toNat)).rsp.consumed.toNat =
        n + l.toNat := by
      rw [pktBodyReply_consumed_of_ok hok, windowSeq_length]
      exact statusRsp_consumed (st := .ok) hroom
    rw [hconsumed] at hcount
    have hd' := hsame.decodeInt_eq hd (by omega) ((Nat.le_add_right n _).trans hcount)
    rw [replyOf_decPkt_body hfit' hd' hpos hcount, hsame.windowSeq_eq hconsumed.ge]

/-- A decode command whose reply carries over answers the same in the other window. -/
theorem exec_eq_of_carriesOver {i j : Instr} {t : State} {r : Rsp}
    (hwin : i.window? = some (ptr, avail)) (hdec : i.format = .fDec)
    (hcarry : ptr.toNat + avail.toNat ≤ s.cfg.top →
      CarriesOver s s' ptr q avail' (replyOf i s) (replyOf j s'))
    (hexec : exec i s = .next t) (hrsp : t.responses = s.responses ++ [r]) (hok : r.status = .ok)
    (hcount : r.consumed.toNat ≤ avail'.toNat) (hsame : SameWindowBytes s s' ptr q r.consumed) :
    exec j s' = .next (Answered s' r) := by
  obtain rfl := exec_response hexec hrsp
  have hfit := window_fits_of_status hwin (s := s) (by rw [hok]; exact Status.noConfusion)
  have hreply : replyOf j s' = answer (replyOf i s).rsp := by
    rw [hcarry hfit hok hcount hsame, answer, ← replyOf_stores_eq_nil s (Or.inl hdec)]
  exact exec_answered hreply

end

/-! ## The obligation -/

/-- Settles O37: the reply of each of the four decode commands carries over. -/
theorem whatFollowsAnItemHasNoInfluence : Obligations.WhatFollowsAnItemHasNoInfluence := by
  intro i j ptr q avail avail' s s' t r hij hexec hrsp hok hfit' hcount hsame
  rcases hij with ⟨rfl, rfl⟩ | ⟨rfl, rfl⟩ | ⟨rfl, rfl⟩ | ⟨rfl, rfl⟩
  · refine exec_eq_of_carriesOver rfl rfl (fun hfit => ?_) hexec hrsp hok hcount hsame
    rw [replyOf_decVarint hfit, replyOf_decVarint hfit']
    exact decodedReply_carriesOver result32
  · refine exec_eq_of_carriesOver rfl rfl (fun hfit => ?_) hexec hrsp hok hcount hsame
    rw [replyOf_decVarlong hfit, replyOf_decVarlong hfit']
    exact decodedReply_carriesOver id
  · exact exec_eq_of_carriesOver rfl rfl (fun hfit => decPos_carriesOver hfit hfit')
      hexec hrsp hok hcount hsame
  · exact exec_eq_of_carriesOver rfl rfl (fun hfit => decPkt_carriesOver hfit hfit')
      hexec hrsp hok hcount hsame

end Sys2Proof.Machine
